-- ==== Sys2Proof/Word.lean ====
section
/-!
DEFINITION. The word types of the hardware: bytes, blocks, columns, banks and the host's command pair.
Rules: 00_scope.md R6 and R7, 10_state.md R20, 30_encoding.md R70.
-/

namespace Sys2Proof

/-- A byte, 8 bits, bit 7 the most significant (R6, R52). A field element of GF(2^8) is a byte (R100). -/
abbrev Byte := BitVec 8

/-- A block: 16 bytes `B[0] .. B[15]` (R7). A 4x4 matrix is another view of the same bytes (R22). -/
abbrev Block := Vector Byte 16

/-- A column, or a row, of a matrix: 4 bytes (R7). -/
abbrev Column := Vector Byte 4

/-- A bank of 11 blocks, numbered 0..10: the shape of `RK` and of `TR` (R7, R24, R25). -/
abbrev Bank := Vector Block 11

/-- What the host presents at the command port: the command word `CMD[23:0]` and the data input
`DIN[127:0]`, sampled together (R70). -/
structure Command where
  cmd : BitVec 24
  din : BitVec 128
  deriving DecidableEq, Repr

end Sys2Proof
end

