-- ==== Sys2Proof/Machine/Views.lean ====
section
/-!
DEFINITION. The views of a block and of a bank: bytes, matrix cells, columns, rows, and the flat bit vectors of the
ports (00_scope.md R7, 10_state.md R22, 20_memory.md R51). Byte order is decided here and nowhere else.
-/

namespace Sys2Proof.Machine

open Sys2Proof

/-- Byte `B[i]` of a block (R7). -/
def byteAt (B : Block) (i : Fin 16) : Byte := B[i]

/-- The block whose byte `i` is `f i`. -/
def blockOf (f : Fin 16 → Byte) : Block :=
  #v[f 0, f 1, f 2, f 3, f 4, f 5, f 6, f 7, f 8, f 9, f 10, f 11, f 12, f 13, f 14, f 15]

/-- Byte `r` of a column (or of a row). -/
def colByte (C : Column) (r : Fin 4) : Byte := C[r]

/-- The column whose byte `r` is `f r`. -/
def columnOf (f : Fin 4 → Byte) : Column := #v[f 0, f 1, f 2, f 3]

/-- Entry `k` of a bank. An index 11..15 names nothing and cannot be written here (R24, R56). -/
def bankAt (W : Bank) (k : Fin 11) : Block := W[k]

/-- The bank whose entry `k` is `f k`. -/
def bankOf (f : Fin 11 → Block) : Bank :=
  #v[f 0, f 1, f 2, f 3, f 4, f 5, f 6, f 7, f 8, f 9, f 10]

/-- The row of byte `i`: `i mod 4` (R22). -/
def rowOfIndex (i : Fin 16) : Fin 4 := ⟨i.val % 4, by omega⟩

/-- The column of byte `i`: `i div 4` (R22). -/
def colOfIndex (i : Fin 16) : Fin 4 := ⟨i.val / 4, by omega⟩

/-- The index of the byte in row `r`, column `c`: `r + 4*c` (R22). -/
def indexOfCell (r c : Fin 4) : Fin 16 := ⟨r.val + 4 * c.val, by omega⟩

/-- `M[r][c] = B[r + 4*c]` (R22). -/
def cell (M : Block) (r c : Fin 4) : Byte := byteAt M (indexOfCell r c)

/-- The block whose cell in row `r`, column `c` is `f r c` (R22: `M[i mod 4][i div 4] = B[i]`). -/
def matrixOf (f : Fin 4 → Fin 4 → Byte) : Block := blockOf fun i => f (rowOfIndex i) (colOfIndex i)

/-- `col(M, c)`: the word `[M[0][c], M[1][c], M[2][c], M[3][c]]` (R7). -/
def column (M : Block) (c : Fin 4) : Column := columnOf fun r => cell M r c

/-- `row(M, r)`: the word `[M[r][0], M[r][1], M[r][2], M[r][3]]` (R7). -/
def row (M : Block) (r : Fin 4) : Column := columnOf fun c => cell M r c

/-- The block whose column `c` is `f c`. -/
def blockOfColumns (f : Fin 4 → Column) : Block := matrixOf fun r c => colByte (f c) r

/-- The exclusive or of corresponding rows of two columns (R141). -/
def xorColumn (A B : Column) : Column := columnOf fun r => colByte A r ^^^ colByte B r

/-- 16 bytes of 0x00. -/
def zeroBlock : Block := blockOf fun _ => 0x00#8

/-- 11 blocks of zero bytes. -/
def zeroBank : Bank := bankOf fun _ => zeroBlock

/-- The block in a flat 128-bit vector: `B[i]` is bits `[127 - 8i : 120 - 8i]` (R51, R73). -/
def blockOfFlat (v : BitVec 128) : Block := blockOf fun i => v.extractLsb' (120 - 8 * i.val) 8

/-- Byte `B[i]` at its place in the flat 128-bit view (R51). -/
def flatByte (B : Block) (i : Fin 16) : BitVec 128 := (byteAt B i).setWidth 128 <<< (120 - 8 * i.val)

/-- The flat 128-bit view of a block, `B[0]` the most significant byte (R51). -/
def flatOfBlock (B : Block) : BitVec 128 :=
  flatByte B 0 ||| flatByte B 1 ||| flatByte B 2 ||| flatByte B 3 ||| flatByte B 4 ||| flatByte B 5 ||| flatByte B 6 |||
    flatByte B 7 ||| flatByte B 8 ||| flatByte B 9 ||| flatByte B 10 ||| flatByte B 11 ||| flatByte B 12 |||
    flatByte B 13 ||| flatByte B 14 ||| flatByte B 15

/-- Entry `k` of a bank at its place in the flat 1408-bit view (R51). -/
def flatEntry (W : Bank) (k : Fin 11) : BitVec 1408 :=
  (flatOfBlock (bankAt W k)).setWidth 1408 <<< (1280 - 128 * k.val)

/-- The flat 1408-bit view of a bank: entry `k` is bits `[1407 - 128k : 1280 - 128k]` (R51). -/
def flatOfBank (W : Bank) : BitVec 1408 :=
  flatEntry W 0 ||| flatEntry W 1 ||| flatEntry W 2 ||| flatEntry W 3 ||| flatEntry W 4 ||| flatEntry W 5 |||
    flatEntry W 6 ||| flatEntry W 7 ||| flatEntry W 8 ||| flatEntry W 9 ||| flatEntry W 10

end Sys2Proof.Machine
end

