-- ==== Sys2Proof/Machine/Operands.lean ====
section
/-!
DEFINITION. The operand forms: the fields of a command word and the block operand of the loads
(30_encoding.md R71, R72, R73). Operands are taken exactly as they stand; nothing is extended, scaled or shifted.
-/

namespace Sys2Proof.Machine

open Sys2Proof

/-- `op` = `CMD[23:20]` (R71). -/
def opField (cmd : BitVec 24) : BitVec 4 := cmd.extractLsb' 20 4

/-- `k` = `CMD[19:16]`, unsigned (R71). -/
def kField (cmd : BitVec 24) : BitVec 4 := cmd.extractLsb' 16 4

/-- `a` = `CMD[15:8]` (R71). -/
def aField (cmd : BitVec 24) : Byte := cmd.extractLsb' 8 8

/-- `b` = `CMD[7:0]` (R71). -/
def bField (cmd : BitVec 24) : Byte := cmd.extractLsb' 0 8

/-- The command word with these four fields (R71). -/
def commandWord (op k : BitVec 4) (a b : Byte) : BitVec 24 :=
  (op.setWidth 24 <<< 20) ||| (k.setWidth 24 <<< 16) ||| (a.setWidth 24 <<< 8) ||| b.setWidth 24

/-- The block operand of the `L` format: `DIN` cut into bytes (R73, R51). -/
def blockOperand (din : BitVec 128) : Block := blockOfFlat din

/-- The round key a `k` field names: entry `k` of the bank for 0..10, nothing for 11..15 (R56, R76). -/
def roundKeyIndex (k : BitVec 4) : Option (Fin 11) :=
  if h : k.toNat < 11 then some ⟨k.toNat, h⟩ else none

end Sys2Proof.Machine
end

