-- ==== Sys2Proof/Syntax.lean ====
section
/-!
DEFINITION. The commands of the block as syntax: one constructor per row of spec/opcode_table.json
(30_encoding.md R74), with the operands its format reads (R72). Fields a format ignores (R77) are not part of a
command's meaning and do not appear.
-/

namespace Sys2Proof

/-- A command of rule R74, with its operands assembled (R73). -/
inductive Instr where
  /-- `GFMUL a, b` (R105): two byte operands. -/
  | gfmul (a b : Byte)
  /-- `SBOX a` (R116): one byte operand. -/
  | sbox (a : Byte)
  /-- `SUBBYTES` (R122). -/
  | subbytes
  /-- `SHIFTROWS` (R124). -/
  | shiftrows
  /-- `MIXCOLUMNS` (R127). -/
  | mixcolumns
  /-- `ADDROUNDKEY k` (R130): the 4-bit round-key index, legal 0..10 (see `Instr.wf`). -/
  | addroundkey (k : BitVec 4)
  /-- `KEYEXPAND` (R144). -/
  | keyexpand
  /-- `ENCRYPT` (R154). -/
  | encrypt
  /-- `LDS D` (R170): the block operand taken from `DIN`. -/
  | lds (d : Block)
  /-- `LDK D` (R171): the block operand taken from `DIN`. -/
  | ldk (d : Block)
  deriving DecidableEq, Repr

end Sys2Proof
end

