-- ==== Sys2Proof/WellFormed.lean ====
section
/-!
DEFINITION. Which commands are well formed. The one operand check of the hardware is the round-key index of
`ADDROUNDKEY` (30_encoding.md R76: "This is the hardware's only operand check").
-/

namespace Sys2Proof

/-- A command the encoding of rule R79 can give: the index of `ADDROUNDKEY` names a round key, 0..10 (R76). -/
def Instr.wf : Instr → Bool
  | .addroundkey k => decide (k.toNat ≤ 10)
  | .gfmul _ _ => true
  | .sbox _ => true
  | .subbytes => true
  | .shiftrows => true
  | .mixcolumns => true
  | .keyexpand => true
  | .encrypt => true
  | .lds _ => true
  | .ldk _ => true

end Sys2Proof
end

