-- ==== Sys2Proof/Decode.lean ====
section
/-!
DEFINITION. The decoder of rule R79, total on every command and rejecting by name, and the encoder that gives the
canonical command of rule R80.
-/

namespace Sys2Proof

open Sys2Proof.Machine

/-- Why a command word is illegal: the two causes of `InvalidInput` (60_exceptions.md R180). The hardware records
neither of them; the names serve the reader. -/
inductive DecodeError where
  /-- `CMD[23:20]` in 0xA..0xF (R75). -/
  | reservedOpcode (op : BitVec 4)
  /-- `CMD[23:20]` = 0x5 with `CMD[19:16]` in 11..15 (R76). -/
  | roundKeyIndexOutOfRange (k : BitVec 4)
  deriving DecidableEq, Repr

/-- The decoder (R79): `op` first, `k` second (R184); fields a format does not read are ignored (R77); `DIN` is read
by the two loads only (R70). -/
def decode (c : Command) : Except DecodeError Instr :=
  let op := opField c.cmd
  let k := kField c.cmd
  let a := aField c.cmd
  let b := bField c.cmd
  if op = 0x0#4 then .ok (.gfmul a b)
  else if op = 0x1#4 then .ok (.sbox a)
  else if op = 0x2#4 then .ok .subbytes
  else if op = 0x3#4 then .ok .shiftrows
  else if op = 0x4#4 then .ok .mixcolumns
  else if op = 0x5#4 then
    (if k.toNat ≤ 10 then .ok (.addroundkey k) else .error (.roundKeyIndexOutOfRange k))
  else if op = 0x6#4 then .ok .keyexpand
  else if op = 0x7#4 then .ok .encrypt
  else if op = 0x8#4 then .ok (.lds (blockOperand c.din))
  else if op = 0x9#4 then .ok (.ldk (blockOperand c.din))
  else .error (.reservedOpcode op)

/-- The value of `op` that selects the command (R74). -/
def opcodeOf : Instr → BitVec 4
  | .gfmul _ _ => 0x0#4
  | .sbox _ => 0x1#4
  | .subbytes => 0x2#4
  | .shiftrows => 0x3#4
  | .mixcolumns => 0x4#4
  | .addroundkey _ => 0x5#4
  | .keyexpand => 0x6#4
  | .encrypt => 0x7#4
  | .lds _ => 0x8#4
  | .ldk _ => 0x9#4

/-- The canonical command of an instruction (R80): every ignored field zero, `DIN` zero where it is ignored. -/
def encode (i : Instr) : Command :=
  match i with
  | .gfmul a b => ⟨commandWord (opcodeOf i) 0x0#4 a b, 0#128⟩
  | .sbox a => ⟨commandWord (opcodeOf i) 0x0#4 a 0x00#8, 0#128⟩
  | .subbytes => ⟨commandWord (opcodeOf i) 0x0#4 0x00#8 0x00#8, 0#128⟩
  | .shiftrows => ⟨commandWord (opcodeOf i) 0x0#4 0x00#8 0x00#8, 0#128⟩
  | .mixcolumns => ⟨commandWord (opcodeOf i) 0x0#4 0x00#8 0x00#8, 0#128⟩
  | .addroundkey k => ⟨commandWord (opcodeOf i) k 0x00#8 0x00#8, 0#128⟩
  | .keyexpand => ⟨commandWord (opcodeOf i) 0x0#4 0x00#8 0x00#8, 0#128⟩
  | .encrypt => ⟨commandWord (opcodeOf i) 0x0#4 0x00#8 0x00#8, 0#128⟩
  | .lds d => ⟨commandWord (opcodeOf i) 0x0#4 0x00#8 0x00#8, flatOfBlock d⟩
  | .ldk d => ⟨commandWord (opcodeOf i) 0x0#4 0x00#8 0x00#8, flatOfBlock d⟩

/-- The command whose bits are `w` in the numbering of spec/opcode_table.json: bits 23..0 are `CMD`, and the bits a
longer `nbits` gives above them are `DIN` (which the table gives no bits, so it is zero when `nbits` is 24). -/
def commandOfTableWord (nbits w : Nat) : Command :=
  ⟨BitVec.ofNat 24 (w % 2 ^ nbits), BitVec.ofNat 128 ((w % 2 ^ nbits) / 2 ^ 24)⟩

/-- What the decoder reads from an instruction whose bits are `w`, numbered as the opcode table numbers them. -/
def decodeTableWord (nbits w : Nat) : Option Instr :=
  match decode (commandOfTableWord nbits w) with
  | .ok i => some i
  | .error _ => none

end Sys2Proof
end

