-- ==== Sys2Proof/Machine/Flags.lean ====
section
/-!
DEFINITION. The fields of `STATUS` (10_state.md R27, R28). The hardware has no carry, zero, overflow, sign or parity
flag and no condition code (R29): `ERR` is the only flag-like bit and `RND` the only counter.
-/

namespace Sys2Proof.Machine

open Sys2Proof

/-- `STATUS.ERR`, bit 0 (R27). -/
def errOf (status : Byte) : Bool := status.getLsbD 0

/-- `STATUS.RND`, bits 7:4 (R27, R28). -/
def rndOf (status : Byte) : BitVec 4 := status.extractLsb' 4 4

/-- The reserved bits 3:1 as the register holds them (R27). -/
def reservedOf (status : Byte) : BitVec 3 := status.extractLsb' 1 3

/-- `STATUS.ERR <- 1`; every other bit stays (R185). -/
def setErr (status : Byte) : Byte := status ||| 0x01#8

/-- `STATUS.RND <- r`; every other bit stays (R28, R154). -/
def setRnd (status : Byte) (r : BitVec 4) : Byte := (status &&& 0x0F#8) ||| (r.setWidth 8 <<< 4)

/-- `STATUS` as the host reads it: the reserved bits read as 0 (R27). -/
def statusView (status : Byte) : Byte := status &&& 0xF1#8

end Sys2Proof.Machine
end

