-- ==== Sys2Proof/Machine/State.lean ====
section
/-!
DEFINITION. The state of one instance of the block (10_state.md R20), the host's side of its interface
(60_exceptions.md R194), the outcomes other than a next state, and the state after reset (R33, R200).
-/

namespace Sys2Proof.Machine

open Sys2Proof

/-- A register the host can read by name, with its index for a bank (R172, R194). An index 11..15 does not exist
(R24), so it cannot be named. -/
inductive Reg where
  | S
  | KEY
  | RK (k : Fin 11)
  | TR (k : Fin 11)
  | RES
  | STATUS
  deriving DecidableEq, Repr

/-- What a host read returns: "the register's current value as a block (bytes in order 0..15) or a byte" (R172). -/
inductive Reading where
  | block (b : Block)
  | byte (b : Byte)
  deriving DecidableEq, Repr

/-- One thing the host does at the block's interface (the table of R194). -/
inductive HostAction where
  /-- Present a command at the port. Allowed only when the block is idle. -/
  | issue (c : Command)
  /-- Read a register. Allowed only when the block is idle. -/
  | read (r : Reg)
  /-- Apply reset. Allowed at any time. -/
  | reset
  /-- Wait until the block is idle (nothing to wait for when it already is). -/
  | wait
  deriving DecidableEq, Repr

/-- The state. The first six fields are the architectural registers, all of them (R20). `busy` is the hidden
indication of R32 and R194 with the command sampled at acceptance (R61). `host` and `lastRead` are the model's own:
the input from outside, and what the host got back (assumption log entries 1 and 3). -/
structure State where
  /-- `S`, the State register (R21). -/
  S : Block
  /-- `KEY`, the master key register (R23). -/
  KEY : Block
  /-- `RK[0..10]`, the round-key bank (R24). -/
  RK : Bank
  /-- `TR[0..10]`, the trace bank (R25). -/
  TR : Bank
  /-- `RES`, the byte result register (R26). -/
  RES : Byte
  /-- `STATUS`: `ERR` in bit 0, bits 3:1 reserved, `RND` in bits 7:4 (R27). -/
  STATUS : Byte
  /-- The command accepted and not yet completed; `none` when the block is idle (R194). -/
  busy : Option Command
  /-- The model's own: what the host does next, oldest first (R194). -/
  host : List HostAction
  /-- The model's own: what the host's last register read returned (R172). -/
  lastRead : Option Reading
  deriving DecidableEq, Repr

/-- Reasons the machine stops with a fault. The spec has none: "No data-dependent exception exists" (R181), and
`InvalidInput`, the one exception, leaves the block "ready for the next command" (R185), so it is a next state.
Nothing raises a fault, and the type has no constructor. -/
inductive Fault where
  deriving DecidableEq, Repr

/-- Reasons the model gives a step no meaning. -/
inductive Refusal where
  /-- An instruction that has no meaning yet, by its mnemonic in the opcode table. Raised by no arm of `exec`: every
  command has its meaning. Safe: the model stops. -/
  | notModelled (mnemonic : String)
  /-- The host issued a command or read a register while the block was busy. Raised by the step (`hostStep`).
  R194: "this spec gives such an attempt no meaning (a model gives it no move)". Safe: the model stops where the
  spec says nothing. -/
  | hostActedWhileBusy
  deriving DecidableEq, Repr

/-- The state after reset: "every architectural register holds zero" (R33), the block is idle and no command is in
progress (R200). Nothing comes from the host and it has read nothing (assumption log entries 1 and 3). -/
def State.reset : State where
  S := zeroBlock
  KEY := zeroBlock
  RK := zeroBank
  TR := zeroBank
  RES := 0x00#8
  STATUS := 0x00#8
  busy := none
  host := []
  lastRead := none

end Sys2Proof.Machine
end

