-- ==== Sys2Proof/Machine/Ops.lean ====
section
/-!
DEFINITION. The named operations on the registers: writing each, reading each as the host does, raising
`InvalidInput`, and applying reset. There is no memory (20_memory.md R50), so there is no memory operation.
-/

namespace Sys2Proof.Machine

open Sys2Proof

/-- `S <- b`, all 16 bytes together (R54). -/
def writeS (s : State) (b : Block) : State := { s with S := b }

/-- `KEY <- b`, all 16 bytes together (R54, R171). -/
def writeKey (s : State) (b : Block) : State := { s with KEY := b }

/-- `RK[k] <- W[k]` for every `k` in 0..10, together (R24, R54). -/
def writeRK (s : State) (W : Bank) : State := { s with RK := W }

/-- `TR[r] <- T[r]` for every `r` in 0..10, together (R25, R54). -/
def writeTR (s : State) (T : Bank) : State := { s with TR := T }

/-- `RES <- v` (R26). -/
def writeRes (s : State) (v : Byte) : State := { s with RES := v }

/-- `STATUS.RND <- r` (R28). -/
def writeRnd (s : State) (r : BitVec 4) : State := { s with STATUS := setRnd s.STATUS r }

/-- Taking the one exception: `raise InvalidInput(CMD)` sets `STATUS.ERR` and does nothing else. Nothing is saved,
no mode changes and control goes nowhere (R185); there is no return from it (R187). -/
def raiseInvalidInput (s : State) : State := { s with STATUS := setErr s.STATUS }

/-- The value a host read of a register returns (R172, R194); `STATUS` with its reserved bits 0 (R27). -/
def readReg (s : State) (r : Reg) : Reading :=
  match r with
  | .S => .block s.S
  | .KEY => .block s.KEY
  | .RK k => .block (bankAt s.RK k)
  | .TR k => .block (bankAt s.TR k)
  | .RES => .byte s.RES
  | .STATUS => .byte (statusView s.STATUS)

/-- A host read: it returns the register's value and has no side effect on the block (R55, R172). -/
def hostRead (s : State) (r : Reg) : State := { s with lastRead := some (readReg s r) }

/-- Reset, at any time: every register takes its reset value, the block is idle, and a command in progress is
abandoned (R200, R201). What the host does next and what it read before are the host's and stay. -/
def applyReset (s : State) : State :=
  { State.reset with host := s.host, lastRead := s.lastRead }

/-- Acceptance of a command by an idle block: `CMD` and `DIN` are sampled once and the block is busy (R61, R194). -/
def acceptCommand (s : State) (c : Command) : State := { s with busy := some c }

/-- The block becomes idle (R194): done as the command completes. -/
def becomeIdle (s : State) : State := { s with busy := none }

/-- The host's remaining actions become `rest`. -/
def setHost (s : State) (rest : List HostAction) : State := { s with host := rest }

/-- `s_out[127:0]`: the flat port view of `S` (R51, D2). -/
def sOut (s : State) : BitVec 128 := flatOfBlock s.S

/-- `key_out[127:0]` (R51, D2). -/
def keyOut (s : State) : BitVec 128 := flatOfBlock s.KEY

/-- `rk_out[1407:0]` (R51, D2). -/
def rkOut (s : State) : BitVec 1408 := flatOfBank s.RK

/-- `tr_out[1407:0]` (R51, D2). -/
def trOut (s : State) : BitVec 1408 := flatOfBank s.TR

/-- `res_out[7:0]` (D2). -/
def resOut (s : State) : Byte := s.RES

/-- `status_out[7:0]` (R27, D2). -/
def statusOut (s : State) : Byte := statusView s.STATUS

/-- `cmd_ready`: high when the block is idle (R194, D2). -/
def cmdReady (s : State) : Bool := s.busy.isNone

end Sys2Proof.Machine
end

