-- ==== Sys2Proof/Machine/DataMovement.lean ====
section
/-!
DEFINITION. The two loads `LDS` and `LDK` (45_data_movement.md). There is no store and no copy between registers
(R174); host reads are `hostRead` of Machine/Ops.lean.
-/

namespace Sys2Proof.Machine

open Sys2Proof

/-- `LDS D`: `S <- D`, all 16 bytes together (R170). -/
def execLds (d : Block) (s : State) : Host.Outcome State Fault Refusal := .next (writeS s d)

/-- `LDK D`: `KEY <- D`, all 16 bytes together; `RK` stays as it was (R171, R203). -/
def execLdk (d : Block) (s : State) : Host.Outcome State Fault Refusal := .next (writeKey s d)

end Sys2Proof.Machine
end

