-- ==== Sys2Proof/Config.lean ====
section
/-!
DEFINITION. The fixed constants of the hardware (00_scope.md R4, 10_state.md R30, 43_aes_key_schedule.md R140).
The spec leaves no result open (R9, R181), so there is no free value here. The one open parameter, the latency
`LAT(op)` of R206, is read by no rule and is left out with time as a whole (assumption log entry 5).
-/

namespace Sys2Proof

/-- `POLY`: the field polynomial x^8+x^4+x^3+x+1, bit pattern 0x11B (R4, R100). -/
def Config.poly : BitVec 9 := 0x11B#9

/-- `RED`: the reduction constant, `POLY` with the leading term dropped (R4, R101). -/
def Config.red : Byte := 0x1B#8

/-- `AFF_C`: the constant of the affine transform (R4, R111). -/
def Config.affC : Byte := 0x63#8

/-- The number of iterations of the multiplier's loop (R4, R101). -/
def Config.multIterations : Nat := 8

/-- `RCON[1..10]`, entry `r - 1` of the vector being `RCON[r]`; there is no `RCON[0]` and no `RCON[11]`
(R4, R30, R140). -/
def Config.rcon : Vector Byte 10 :=
  #v[0x01#8, 0x02#8, 0x04#8, 0x08#8, 0x10#8, 0x20#8, 0x40#8, 0x80#8, 0x1B#8, 0x36#8]

end Sys2Proof
end

