-- ==== Sys2Proof/Machine/GfUnit.lean ====
section
/-!
DEFINITION. Unit gf256_multiplier: the field multiplication and the command `GFMUL` (40_gf256_multiplier.md).
-/

namespace Sys2Proof.Machine

open Sys2Proof

/-- One shift of the first operand: left by one, and the reduction constant exclusive-ored in when the bit pushed out
was 1 (R101; `xtime` of R103). -/
def xtime (x : Byte) : Byte :=
  if x.getLsbD 7 then (x <<< 1) ^^^ Config.red else x <<< 1

/-- The loop of R101, `n` iterations from accumulator `p`, first operand `x`, second operand `y`: accumulate with the
unshifted `x`, then shift and reduce `x`, then shift `y` (R204). It never stops early. -/
def gfmulLoop : Nat → Byte → Byte → Byte → Byte
  | 0, p, _, _ => p
  | n + 1, p, x, y => gfmulLoop n (if y.getLsbD 0 then p ^^^ x else p) (xtime x) (y >>> 1)

/-- `gfmul(a, b)`, the field product: 8 iterations from accumulator 0x00 (R101). -/
def gfmul (a b : Byte) : Byte := gfmulLoop Config.multIterations 0x00#8 a b

/-- `GFMUL a, b`: `RES <- gfmul(a, b)` (R105). -/
def execGfmul (a b : Byte) (s : State) : Host.Outcome State Fault Refusal := .next (writeRes s (gfmul a b))

end Sys2Proof.Machine
end

