-- ==== Sys2Proof/Machine/SboxUnit.lean ====
section
/-!
DEFINITION. Unit aes_sbox_gen: the multiplicative inverse, the affine transform, the substitution box and the command
`SBOX` (41_aes_sbox_gen.md).
-/

namespace Sys2Proof.Machine

open Sys2Proof

/-- The search of R110 over the field elements `n`, `n - 1`, ..., 1 for one whose product with `v` is 0x01. The match
is unique, so the order does not matter (R110); 0x00 where there is none, which for a non-zero `v` and `n` = 255 does
not happen. -/
def searchInverse (v : Byte) : Nat → Byte
  | 0 => 0x00#8
  | n + 1 => if gfmul v (BitVec.ofNat 8 (n + 1)) = 0x01#8 then BitVec.ofNat 8 (n + 1) else searchInverse v n

/-- `gfinv(v)`: 0x00 for 0x00, explicitly; else the unique `i` in 0x01..0xFF with `gfmul(v, i) = 0x01` (R110). -/
def gfinv (v : Byte) : Byte := if v = 0x00#8 then 0x00#8 else searchInverse v 255

/-- Output bit `i` of the affine transform: input bits `i`, `i+4`, `i+5`, `i+6`, `i+7` (mod 8) and bit `i` of the
constant, exclusive-ored (R111). -/
def affineBit (v : Byte) (i : Nat) : Bool :=
  v.getLsbD i ^^ v.getLsbD ((i + 4) % 8) ^^ v.getLsbD ((i + 5) % 8) ^^ v.getLsbD ((i + 6) % 8) ^^
    v.getLsbD ((i + 7) % 8) ^^ Config.affC.getLsbD i

/-- Bit `i` of a byte, set to `bit`, every other bit 0. -/
def bitAt (bit : Bool) (i : Nat) : Byte := (BitVec.ofBool bit).setWidth 8 <<< i

/-- `affine(v)`: the 8 result bits assembled into a byte, bit 7 the most significant (R111, R52). -/
def affine (v : Byte) : Byte :=
  bitAt (affineBit v 0) 0 ||| bitAt (affineBit v 1) 1 ||| bitAt (affineBit v 2) 2 ||| bitAt (affineBit v 3) 3 |||
    bitAt (affineBit v 4) 4 ||| bitAt (affineBit v 5) 5 ||| bitAt (affineBit v 6) 6 ||| bitAt (affineBit v 7) 7

/-- `sbox(v) = affine(gfinv(v))` (R112). -/
def sbox (v : Byte) : Byte := affine (gfinv v)

/-- `SBOX a`: `RES <- sbox(a)` (R116). -/
def execSbox (a : Byte) (s : State) : Host.Outcome State Fault Refusal := .next (writeRes s (sbox a))

end Sys2Proof.Machine
end

