-- ==== Sys2Proof/Machine/KeySchedule.lean ====
section
/-!
DEFINITION. Unit aes_key_schedule: the expansion of a key into 11 round keys and the command `KEYEXPAND`
(43_aes_key_schedule.md).
-/

namespace Sys2Proof.Machine

open Sys2Proof

/-- Step 2 of R141: the word rotated up by one position, byte 0 moving to the end. -/
def rotateUp (w : Column) : Column := columnOf fun r => colByte w (r + 1)

/-- Step 3 of R141: the substitution box on every byte of the word. -/
def subWord (w : Column) : Column := columnOf fun r => sbox (colByte w r)

/-- Step 4 of R141: the round constant exclusive-ored into the first byte only. -/
def addRcon (w : Column) (c : Byte) : Column :=
  columnOf fun r => if r = 0 then colByte w r ^^^ c else colByte w r

/-- The transformed word `g` of R141, steps 1 to 4, from round key `r - 1` and `RCON[r]`. -/
def scheduleWord (P : Block) (c : Byte) : Column := addRcon (subWord (rotateUp (column P 3))) c

/-- Round key `r` from round key `r - 1` and `RCON[r]`: steps 1 to 6 of R141, each column after the first using the
column just computed. -/
def nextRoundKey (P : Block) (c : Byte) : Block :=
  let c0 := xorColumn (column P 0) (scheduleWord P c)
  let c1 := xorColumn (column P 1) c0
  let c2 := xorColumn (column P 2) c1
  let c3 := xorColumn (column P 3) c2
  blockOfColumns fun j => (#v[c0, c1, c2, c3] : Vector Column 4)[j]

/-- Round key `r` of the expansion of `K`, for `r` in 0..10: `W[0] = K`, and `W[r]` from `W[r-1]` with `RCON[r]`
(R141). -/
def roundKey (K : Block) : (r : Nat) → r < 11 → Block
  | 0, _ => K
  | r + 1, h => nextRoundKey (roundKey K r (by omega)) (Config.rcon[r]'(by omega))

/-- `key_expand(K)`: the 11 round keys `W[0] .. W[10]` (R141). -/
def keyExpand (K : Block) : Bank := bankOf fun k => roundKey K k.val k.isLt

/-- `KEYEXPAND`: `RK[k] <- W[k]` for every `k`, where `W = key_expand(KEY)` (R144). -/
def execKeyexpand (s : State) : Host.Outcome State Fault Refusal := .next (writeRK s (keyExpand s.KEY))

end Sys2Proof.Machine
end

