-- ==== Sys2Proof/Machine/Transforms.lean ====
section
/-!
DEFINITION. Units aes_subbytes, aes_shiftrows, aes_mixcolumns and aes_addroundkey: the four state transforms and their
commands (42_aes_state_transforms.md). Every output cell is a function of the old matrix only (R120).
-/

namespace Sys2Proof.Machine

open Sys2Proof

/-- `sub_bytes(M)[r][c] = sbox(M[r][c])` (R121). -/
def subBytes (M : Block) : Block := matrixOf fun r c => sbox (cell M r c)

/-- `shift_rows(M)[r][c] = M[r][(c + r) mod 4]` (R123). -/
def shiftRows (M : Block) : Block := matrixOf fun r c => cell M r (c + r)

/-- `mix_column([s0, s1, s2, s3])`, all four outputs from the original column (R125). -/
def mixColumn (C : Column) : Column :=
  #v[gfmul 0x02#8 (colByte C 0) ^^^ gfmul 0x03#8 (colByte C 1) ^^^ colByte C 2 ^^^ colByte C 3,
     colByte C 0 ^^^ gfmul 0x02#8 (colByte C 1) ^^^ gfmul 0x03#8 (colByte C 2) ^^^ colByte C 3,
     colByte C 0 ^^^ colByte C 1 ^^^ gfmul 0x02#8 (colByte C 2) ^^^ gfmul 0x03#8 (colByte C 3),
     gfmul 0x03#8 (colByte C 0) ^^^ colByte C 1 ^^^ colByte C 2 ^^^ gfmul 0x02#8 (colByte C 3)]

/-- `col(mix_columns(M), c) = mix_column(col(M, c))` (R126). -/
def mixColumns (M : Block) : Block := blockOfColumns fun c => mixColumn (column M c)

/-- `add_round_key(M, K)[r][c] = M[r][c] ^ K[r][c]` (R128). -/
def addRoundKey (M K : Block) : Block := matrixOf fun r c => cell M r c ^^^ cell K r c

/-- `SUBBYTES`: `S <- sub_bytes(S)` (R122). -/
def execSubbytes (s : State) : Host.Outcome State Fault Refusal := .next (writeS s (subBytes s.S))

/-- `SHIFTROWS`: `S <- shift_rows(S)` (R124). -/
def execShiftrows (s : State) : Host.Outcome State Fault Refusal := .next (writeS s (shiftRows s.S))

/-- `MIXCOLUMNS`: `S <- mix_columns(S)` (R127). -/
def execMixcolumns (s : State) : Host.Outcome State Fault Refusal := .next (writeS s (mixColumns s.S))

/-- `ADDROUNDKEY k`: `InvalidInput` when `k` is 11..15, else `S <- add_round_key(S, RK[k])`, with whatever `RK[k]`
holds (R130, R203). -/
def execAddroundkey (k : BitVec 4) (s : State) : Host.Outcome State Fault Refusal :=
  match roundKeyIndex k with
  | none => .next (raiseInvalidInput s)
  | some j => .next (writeS s (addRoundKey s.S (bankAt s.RK j)))

end Sys2Proof.Machine
end

