-- ==== Sys2Proof/Machine/Driver.lean ====
section
/-!
DEFINITION. Unit aes_encrypt_10round: the round sequence and the command `ENCRYPT` (44_aes_encrypt_10round.md).
-/

namespace Sys2Proof.Machine

open Sys2Proof

/-- `round_step(r, M, W)`: round 0 adds the key; rounds 1..9 substitute, shift, mix and add; round 10 leaves
`mix_columns` out (R150, R152). -/
def roundStep (r : Fin 11) (M : Block) (W : Bank) : Block :=
  if r.val = 0 then addRoundKey M (bankAt W 0)
  else if r.val ≤ 9 then addRoundKey (mixColumns (shiftRows (subBytes M))) (bankAt W r)
  else addRoundKey (shiftRows (subBytes M)) (bankAt W 10)

/-- The state matrix after round `r`: the rounds run in the order 0, 1, ..., 10, each once, each on the state the
previous one left (R151). -/
def stateAfterRound (W : Bank) (P : Block) : (r : Nat) → r < 11 → Block
  | 0, h => roundStep ⟨0, h⟩ P W
  | r + 1, h => roundStep ⟨r + 1, h⟩ (stateAfterRound W P r (by omega)) W

/-- The trace `T[0..10]`: the state at the end of each round (R153). -/
def traceOf (W : Bank) (P : Block) : Bank := bankOf fun r => stateAfterRound W P r.val r.isLt

/-- The ciphertext of `encrypt(P, K)`: the state after round 10 (R151, R153). -/
def ciphertext (P K : Block) : Block := stateAfterRound (keyExpand K) P 10 (by omega)

/-- `ENCRYPT`: the key is always expanded anew; `RK`, `TR`, `S` and `RND` are written together (R154). Of the values
0, 1, ..., 10 that `RND` passes through only 10 is ever observed. -/
def execEncrypt (s : State) : Host.Outcome State Fault Refusal :=
  let W := keyExpand s.KEY
  .next (writeRnd (writeS (writeTR (writeRK s W) (traceOf W s.S)) (ciphertext s.S s.KEY)) 0xA#4)

end Sys2Proof.Machine
end

