-- ==== Sys2Proof/Machine/Dispatch.lean ====
section
/-!
DEFINITION. Which meaning each command has: one arm per row of the opcode table (30_encoding.md R74).
-/

namespace Sys2Proof.Machine

open Sys2Proof

def exec (i : Instr) (s : State) : Host.Outcome State Fault Refusal :=
  match i with
  | .gfmul a b => Sys2Proof.Machine.execGfmul a b s
  | .sbox a => Sys2Proof.Machine.execSbox a s
  | .subbytes => Sys2Proof.Machine.execSubbytes s
  | .shiftrows => Sys2Proof.Machine.execShiftrows s
  | .mixcolumns => Sys2Proof.Machine.execMixcolumns s
  | .addroundkey k => Sys2Proof.Machine.execAddroundkey k s
  | .keyexpand => Sys2Proof.Machine.execKeyexpand s
  | .encrypt => Sys2Proof.Machine.execEncrypt s
  | .lds d => Sys2Proof.Machine.execLds d s
  | .ldk d => Sys2Proof.Machine.execLdk d s

end Sys2Proof.Machine
end

