-- ==== Sys2Proof/Machine/Interface.lean ====
section
/-!
DEFINITION. The host interface: what one step of the machine does (60_exceptions.md R194, 70_reset_and_hazards.md
R200, R201). A command is accepted in one step and runs in another; every register it writes changes in the one step
that runs it (20_memory.md R54).
-/

namespace Sys2Proof.Machine

open Sys2Proof

/-- Performing a sampled command: a legal one has its meaning, an illegal one raises `InvalidInput`, decided from the
command word alone (R75, R76, R180, R186). -/
def runCommand (c : Command) (s : State) : Host.Outcome State Fault Refusal :=
  match decode c with
  | .ok i => exec i s
  | .error _ => .next (raiseInvalidInput s)

/-- One step of an idle block: it takes the host's next action, and with none it waits (R194, R200). -/
def idleStep (s : State) : Host.Outcome State Fault Refusal :=
  match s.host with
  | [] => .next s
  | .issue c :: rest => .next (acceptCommand (setHost s rest) c)
  | .read r :: rest => .next (hostRead (setHost s rest) r)
  | .reset :: rest => .next (applyReset (setHost s rest))
  | .wait :: rest => .next (setHost s rest)

/-- One step of a block busy with `c`: the command completes, whether the host waits for it or does nothing; a reset
abandons it (R201); issuing or reading has no meaning (R194). -/
def busyStep (c : Command) (s : State) : Host.Outcome State Fault Refusal :=
  match s.host with
  | [] => runCommand c (becomeIdle s)
  | .wait :: rest => runCommand c (becomeIdle (setHost s rest))
  | .reset :: rest => .next (applyReset (setHost s rest))
  | .issue _ :: _ => .refused .hostActedWhileBusy
  | .read _ :: _ => .refused .hostActedWhileBusy

/-- One step of the block at its interface (R194). -/
def hostStep (s : State) : Host.Outcome State Fault Refusal :=
  match s.busy with
  | none => idleStep s
  | some c => busyStep c s

/-- The state in which the block has just sampled `c` and the host waits for it: the very next step runs `c`. -/
def withSampledCommand (s : State) (c : Command) : State :=
  { s with busy := some c, host := .wait :: s.host }

end Sys2Proof.Machine
end

