-- ==== Sys2Proof/Machine/Step.lean ====
section
/-!
DEFINITION. The step of the machine, and how an instruction is put where the next step runs it.
-/

namespace Sys2Proof.Machine

open Sys2Proof

/-- One step (R194; Machine/Interface.lean). -/
def step (s : State) : Host.Outcome State Fault Refusal := hostStep s

/-- `s` with the instruction whose bits are `w` (numbered as spec/opcode_table.json numbers them) sampled by the
block and the host waiting for it, so that the next step runs exactly it. The block fetches nothing (R61): the host
presents each command, and this stands for its having done so (assumption log entry 4). -/
def State.withFetchWord (s : State) (nbits w : Nat) : State :=
  withSampledCommand s (commandOfTableWord nbits w)

end Sys2Proof.Machine
end

