-- ==== Sys2Proof/Machine/Assembler.lean ====
section
/-!
DEFINITION. The assembler notation of 30_encoding.md: mnemonics and operands (R80) and the three pseudo-instructions
(R81). It is the host's, not the block's: the block sees command words only.
-/

namespace Sys2Proof.Machine

open Sys2Proof

/-- The pseudo-instructions (R81). -/
inductive Pseudo where
  /-- `ROUND r`, for `r` in 1..9. -/
  | round (r : BitVec 4)
  /-- `FINALROUND`. -/
  | finalround
  /-- `XTIME 0xAA`. -/
  | xtime (a : Byte)
  deriving DecidableEq, Repr

/-- `ROUND` takes 1..9 (R81). -/
def pseudoWf : Pseudo → Bool
  | .round r => decide (1 ≤ r.toNat ∧ r.toNat ≤ 9)
  | .finalround => true
  | .xtime _ => true

/-- The fixed expansion into commands (R81). -/
def expandPseudo : Pseudo → List Instr
  | .round r => [.subbytes, .shiftrows, .mixcolumns, .addroundkey r]
  | .finalround => [.subbytes, .shiftrows, .addroundkey 0xA#4]
  | .xtime a => [.gfmul a 0x02#8]

/-- The value of a hexadecimal digit. -/
def hexDigit (c : Char) : Option Nat :=
  if '0'.toNat ≤ c.toNat ∧ c.toNat ≤ '9'.toNat then some (c.toNat - '0'.toNat)
  else if 'a'.toNat ≤ c.toNat ∧ c.toNat ≤ 'f'.toNat then some (c.toNat - 'a'.toNat + 10)
  else if 'A'.toNat ≤ c.toNat ∧ c.toNat ≤ 'F'.toNat then some (c.toNat - 'A'.toNat + 10)
  else none

/-- The value of hexadecimal digits, the first the most significant, continuing from `acc`. -/
def hexValue (acc : Nat) : List Char → Option Nat
  | [] => some acc
  | c :: cs =>
    match hexDigit c with
    | some d => hexValue (16 * acc + d) cs
    | none => none

/-- A byte operand: `0x` and two hexadecimal digits (R80). -/
def byteOperandText (t : String) : Option Byte :=
  match t.toList with
  | ['0', 'x', h, l] => (hexValue 0 [h, l]).map (BitVec.ofNat 8)
  | _ => none

/-- A block operand: 32 hexadecimal digits, byte 0 first (R80). -/
def blockOperandText (t : String) : Option Block :=
  if t.toList.length = 32 then (hexValue 0 t.toList).map fun n => blockOfFlat (BitVec.ofNat 128 n) else none

/-- A round-key index in decimal, 0..10 (R80). -/
def indexOperandText (t : String) : Option (BitVec 4) :=
  match ["0", "1", "2", "3", "4", "5", "6", "7", "8", "9", "10"].idxOf? t with
  | some n => some (BitVec.ofNat 4 n)
  | none => none

/-- A line without its comment: `;` starts one (R80). -/
def withoutComment : List Char → List Char
  | [] => []
  | c :: cs => if c = ';' then [] else c :: withoutComment cs

/-- The word read so far, its characters in reverse, as a token if there is one. -/
def tokenOf (cur : List Char) : List String :=
  match cur with
  | [] => []
  | _ :: _ => [String.ofList cur.reverse]

/-- The words of a line; a comma is a word of its own. -/
def tokens (cur : List Char) : List Char → List String
  | [] => tokenOf cur
  | c :: cs =>
    if c = ' ' then tokenOf cur ++ tokens [] cs
    else if c = ',' then tokenOf cur ++ "," :: tokens [] cs
    else tokens (c :: cur) cs

/-- The commands the words of one line stand for (R80, R81); none where they are no line of the notation. -/
def parseWords (ws : List String) : Option (List Instr) :=
  match ws with
  | [] => some []
  | ["GFMUL", a, ",", b] =>
    match byteOperandText a, byteOperandText b with
    | some x, some y => some [.gfmul x y]
    | _, _ => none
  | ["SBOX", a] => (byteOperandText a).map fun x => [.sbox x]
  | ["SUBBYTES"] => some [.subbytes]
  | ["SHIFTROWS"] => some [.shiftrows]
  | ["MIXCOLUMNS"] => some [.mixcolumns]
  | ["ADDROUNDKEY", k] => (indexOperandText k).map fun n => [.addroundkey n]
  | ["KEYEXPAND"] => some [.keyexpand]
  | ["ENCRYPT"] => some [.encrypt]
  | ["LDS", d] => (blockOperandText d).map fun b => [.lds b]
  | ["LDK", d] => (blockOperandText d).map fun b => [.ldk b]
  | ["ROUND", r] =>
    match indexOperandText r with
    | some n => if pseudoWf (.round n) then some (expandPseudo (.round n)) else none
    | none => none
  | ["FINALROUND"] => some (expandPseudo .finalround)
  | ["XTIME", a] => (byteOperandText a).map fun x => expandPseudo (.xtime x)
  | _ => none

/-- One line assembled into canonical commands (R80): one command per line, or a pseudo-instruction's expansion. -/
def assembleLine (line : String) : Option (List Command) :=
  (parseWords (tokens [] (withoutComment line.toList))).map fun is => is.map encode

end Sys2Proof.Machine
end

