-- ==== Sys2Proof/Machine/Instances.lean ====
section
/-!
DEFINITION. Several instances of the block (20_memory.md R63, 10_state.md R35, 60_exceptions.md R191): each has one
full copy of the state and they share nothing. The spec gives no order between the commands of different instances;
here one instance, named by its position, takes one step.
-/

namespace Sys2Proof.Machine

open Sys2Proof

/-- The instance at position `n` takes one step and the others stay; `none` where there is no such instance or its
step gives no next state. -/
def stepInstance (states : List State) (n : Nat) : Option (List State) :=
  match states[n]? with
  | none => none
  | some s =>
    match step s with
    | .next t => some (states.set n t)
    | .fault _ => none
    | .refused _ => none

end Sys2Proof.Machine
end

