-- ==== Sys2Proof/Machine/Reference.lean ====
section
/-!
DEFINITION. Closed forms and tables that the spec gives beside its algorithms, for claims to compare the machine with.
No meaning of an instruction uses this file.
-/

namespace Sys2Proof.Machine

open Sys2Proof

/-- Multiplication by `x` (R103): the shift with its reduction, written with the constant of R4. -/
def timesX (v : Byte) : Byte := if v.getLsbD 7 then (v <<< 1) ^^^ 0x1B#8 else v <<< 1

/-- The closed form of R103: the exclusive or of `xtime^i(a)` over the set bits `i` of `b`. -/
def productClosedForm (a b : Byte) : Byte :=
  (List.range 8).foldl (fun acc i => if b.getLsbD i then acc ^^^ timesX^[i] a else acc) 0x00#8

/-- The product of two bytes as polynomials over GF(2), not reduced: 15 bits. -/
def carrylessProduct (a b : Byte) : BitVec 15 :=
  (List.range 8).foldl (fun acc i => if b.getLsbD i then acc ^^^ (a.setWidth 15 <<< i) else acc) 0

/-- The remainder of a polynomial of degree at most 14 modulo `POLY` = 0x11B: for each bit from 14 down to 8 that is
set, the polynomial shifted to it is exclusive-ored away (R103). -/
def reduceByPoly (p : BitVec 15) : Byte :=
  ([6, 5, 4, 3, 2, 1, 0].foldl
    (fun acc i => if acc.getLsbD (i + 8) then acc ^^^ (Config.poly.setWidth 15 <<< i) else acc) p).setWidth 8

/-- Entry for `v` of a table of 16 rows of 16 bytes: row the high digit, column the low digit (R114). -/
def tableAt (T : Vector (BitVec 128) 16) (v : Byte) : Byte :=
  byteAt (blockOfFlat (T[v.toNat / 16]'(by omega))) ⟨v.toNat % 16, by omega⟩

/-- The S-box table of R114. -/
def sboxTable : Vector (BitVec 128) 16 :=
  #v[0x637c777bf26b6fc53001672bfed7ab76#128, 0xca82c97dfa5947f0add4a2af9ca472c0#128,
     0xb7fd9326363ff7cc34a5e5f171d83115#128, 0x04c723c31896059a071280e2eb27b275#128,
     0x09832c1a1b6e5aa0523bd6b329e32f84#128, 0x53d100ed20fcb15b6acbbe394a4c58cf#128,
     0xd0efaafb434d338545f9027f503c9fa8#128, 0x51a3408f929d38f5bcb6da2110fff3d2#128,
     0xcd0c13ec5f974417c4a77e3d645d1973#128, 0x60814fdc222a908846eeb814de5e0bdb#128,
     0xe0323a0a4906245cc2d3ac629195e479#128, 0xe7c8376d8dd54ea96c56f4ea657aae08#128,
     0xba78252e1ca6b4c6e8dd741f4bbd8b8a#128, 0x703eb5664803f60e613557b986c11d9e#128,
     0xe1f8981169d98e949b1e87e9ce5528df#128, 0x8ca1890dbfe6426841992d0fb054bb16#128]

/-- The inverse table of R115. -/
def inverseTable : Vector (BitVec 128) 16 :=
  #v[0x00018df6cb527bd1e84f29c0b0e1e5c7#128, 0x74b4aa4b992b605f583ffdccff40eeb2#128,
     0x3a6e5af1554da8c9c10a98153044a2c2#128, 0x2c45926cf3396642f235206f77bb5919#128,
     0x1dfe37672d31f569a764ab135425e909#128, 0xed5c05ca4c2487bf183e22f051ec6117#128,
     0x165eafd349a63643f44791df3393213b#128, 0x79b7978510b5ba3cb670d006a1fa8182#128,
     0x837e7f809673be569b9e95d9f702b9a4#128, 0xde6a326dd88a84722a149f88f9dc899a#128,
     0xfb7c2ec38fb8654826c8124acee7d262#128, 0x0ce01fef11757871a58e763dbdbc8657#128,
     0x0b282fa3dad4e40fa92753041bfcace6#128, 0x7a07ae63c5dbe2ea948bc4d59df8906b#128,
     0xb10dd6ebc60ecfad084ed7e35d501eb3#128, 0x5b2338346846038cdd9c7da0cd1a411c#128]

end Sys2Proof.Machine
end

