-- ==== Sys2Proof/Safety.lean ====
section
/-!
DEFINITION. The terms claims are stated in: runs, when one has ended and when it went wrong (70_reset_and_hazards.md
R208), a careful host (60_exceptions.md R194), the access matrix (10_state.md R34), the invariant of the machine, and
the command sequence of 44_aes_encrypt_10round.md R155.
-/

namespace Sys2Proof.Safety

open Sys2Proof Sys2Proof.Machine

/-- `k` steps of the machine, stopping where a step gives no next state. -/
def run : Nat → State → Host.Outcome State Fault Refusal
  | 0, s => .next s
  | k + 1, s =>
    match step s with
    | .next t => run k t
    | .fault r => .fault r
    | .refused r => .refused r

/-- The meanings of a list of commands, one after another (R58, R208). -/
def runInstrs : List Instr → State → Host.Outcome State Fault Refusal
  | [], s => .next s
  | i :: is, s =>
    match exec i s with
    | .next t => runInstrs is t
    | .fault r => .fault r
    | .refused r => .refused r

/-- A run has ended: the last command has completed, the block is idle and the host does nothing more (R195, R208). -/
def runEnded (s : State) : Bool := s.busy.isNone && s.host.isEmpty

/-- A run has gone wrong "exactly when `STATUS.ERR` = 1 at its end" (R208). -/
def wentWrong (s : State) : Bool := errOf s.STATUS

/-- A run from `s` that ends and has not gone wrong (R208). -/
def RunsSafely (s : State) : Prop := ∃ k t, run k s = .next t ∧ runEnded t = true ∧ wentWrong t = false

/-- A host that keeps the rule of R194, given whether the block is busy: it issues and reads only when the block is
idle, so between a command and the next of these it waits or resets. -/
def careful : Bool → List HostAction → Bool
  | _, [] => true
  | true, .wait :: rest => careful false rest
  | true, .reset :: rest => careful false rest
  | true, .issue _ :: _ => false
  | true, .read _ :: _ => false
  | false, .issue _ :: rest => careful true rest
  | false, .read _ :: rest => careful false rest
  | false, .reset :: rest => careful false rest
  | false, .wait :: rest => careful false rest

/-- A command word the hardware must refuse, read off the numbers of R75 and R76: operation codes 0xA..0xF are the words
from 0xA00000 on, and `ADDROUNDKEY` with an index 11..15 the words 0x5B0000 to 0x5FFFFF. -/
def IllegalWord (cmd : BitVec 24) : Prop :=
  0xA00000 ≤ cmd.toNat ∨ (0x5B0000 ≤ cmd.toNat ∧ cmd.toNat < 0x600000)

/-- Whether the decoder rejects a command. -/
def rejected (c : Command) : Bool :=
  match decode c with
  | .ok _ => false
  | .error _ => true

/-- Whether an action of the host presents a command the decoder rejects. -/
def issuesRejected : HostAction → Bool
  | .issue c => rejected c
  | .read _ => false
  | .reset => false
  | .wait => false

/-- The canonical command of a command (R77, R80): the bits its format does not read (R72) set to 0. -/
def canonicalOf (c : Command) : Command :=
  if opField c.cmd = 0x0#4 then ⟨c.cmd &&& 0xF0FFFF#24, 0#128⟩
  else if opField c.cmd = 0x1#4 then ⟨c.cmd &&& 0xF0FF00#24, 0#128⟩
  else if opField c.cmd = 0x5#4 then ⟨c.cmd &&& 0xFF0000#24, 0#128⟩
  else if opField c.cmd = 0x8#4 ∨ opField c.cmd = 0x9#4 then ⟨c.cmd &&& 0xF00000#24, c.din⟩
  else ⟨c.cmd &&& 0xF00000#24, 0#128⟩

/-- The next thing at the interface lets a running command complete: the host waits for it, or does nothing (R194). -/
def LetsComplete (s : State) : Prop := s.host = [] ∨ s.host.head? = some .wait

/-- A column of the access matrix of R34, with the entry for a bank. -/
inductive Part where
  | S
  | KEY
  | RK (k : Fin 11)
  | TR (k : Fin 11)
  | RES
  | RND
  | ERR
  deriving DecidableEq, Repr

/-- Two states agree on a part. -/
def SameAt (s t : State) : Part → Prop
  | .S => s.S = t.S
  | .KEY => s.KEY = t.KEY
  | .RK k => bankAt s.RK k = bankAt t.RK k
  | .TR k => bankAt s.TR k = bankAt t.TR k
  | .RES => s.RES = t.RES
  | .RND => rndOf s.STATUS = rndOf t.STATUS
  | .ERR => errOf s.STATUS = errOf t.STATUS

/-- The `W` entries of the access matrix (R34). -/
def writesPart (i : Instr) (p : Part) : Bool :=
  match i with
  | .gfmul _ _ => decide (p = .RES)
  | .sbox _ => decide (p = .RES)
  | .subbytes => decide (p = .S)
  | .shiftrows => decide (p = .S)
  | .mixcolumns => decide (p = .S)
  | .addroundkey k => if k.toNat ≤ 10 then decide (p = .S) else decide (p = .ERR)
  | .keyexpand => match p with
    | .RK _ => true
    | _ => false
  | .encrypt => match p with
    | .S | .RK _ | .TR _ | .RND => true
    | .KEY | .RES | .ERR => false
  | .lds _ => decide (p = .S)
  | .ldk _ => decide (p = .KEY)

/-- The `R` entries of the access matrix (R34). `ENCRYPT` reads of `RK` only the values it has just written (R20), so
the bank it finds is not read. -/
def readsPart (i : Instr) (p : Part) : Bool :=
  match i with
  | .gfmul _ _ => false
  | .sbox _ => false
  | .subbytes => decide (p = .S)
  | .shiftrows => decide (p = .S)
  | .mixcolumns => decide (p = .S)
  | .addroundkey k => match roundKeyIndex k with
    | some j => decide (p = .S ∨ p = .RK j)
    | none => false
  | .keyexpand => decide (p = .KEY)
  | .encrypt => decide (p = .S ∨ p = .KEY)
  | .lds _ => false
  | .ldk _ => false

/-- What holds between any two steps: the reserved bits of `STATUS` are 0 (R27), `RND` is 0 or 10 (R28), the round-key
bank is all zero or one whole expansion (R24, R54), and the trace is all zero before the first `ENCRYPT` since reset
and the whole trace of one encryption after it (R25, R28, R54). -/
structure MachineInvariant (s : State) : Prop where
  reserved_zero : reservedOf s.STATUS = 0#3
  rnd_legal : rndOf s.STATUS = 0#4 ∨ rndOf s.STATUS = 0xA#4
  before_encrypt : rndOf s.STATUS = 0#4 → s.TR = zeroBank ∧ (s.RK = zeroBank ∨ ∃ K, s.RK = keyExpand K)
  after_encrypt : rndOf s.STATUS = 0xA#4 → (∃ P K, s.TR = traceOf (keyExpand K) P) ∧ ∃ K, s.RK = keyExpand K

/-- The command sequence of R155: expansion, round 0, rounds 1..9, the final round; 41 commands. -/
def encryptByCommands : List Instr :=
  .keyexpand :: .addroundkey 0#4 ::
    (([1#4, 2#4, 3#4, 4#4, 5#4, 6#4, 7#4, 8#4, 9#4].flatMap fun r => expandPseudo (.round r)) ++
      expandPseudo .finalround)

end Sys2Proof.Safety
end

