-- ==== Sys2Proof/Certificates/Slice0/Obligations.lean ====
section
/-!
DEFINITION. The statements for the provers. Each docstring names the rules of spec/ it formalises.
-/

open Sys2Proof Sys2Proof.Machine Sys2Proof.Safety

/-! ## Encoding -/

/-- Sixteen words the spec writes out and what each decodes to (R79): eight of 95_test_vectors.md section 2.9; 0x1F53AB
of its section 2.2, a variant with ignored fields set (R77); the others from 30_encoding.md R80, the two loads with byte
15 of the block 0x01 (R51). -/
def Obligations.WrittenWordsDecode : Prop :=
  decode ⟨0x005783#24, 0#128⟩ = .ok (.gfmul 0x57#8 0x83#8) ∧
  decode ⟨0x0F5783#24, 0#128⟩ = .ok (.gfmul 0x57#8 0x83#8) ∧
  decode ⟨0x1F53AB#24, 0#128⟩ = .ok (.sbox 0x53#8) ∧
  decode ⟨0x2FFFFF#24, 0#128⟩ = .ok .subbytes ∧
  decode ⟨0x300000#24, 0#128⟩ = .ok .shiftrows ∧
  decode ⟨0x400000#24, 0#128⟩ = .ok .mixcolumns ∧
  decode ⟨0x500000#24, 0#128⟩ = .ok (.addroundkey 0#4) ∧
  decode ⟨0x5AFFFF#24, 0#128⟩ = .ok (.addroundkey 10#4) ∧
  decode ⟨0x5B0000#24, 0#128⟩ = .error (.roundKeyIndexOutOfRange 11#4) ∧
  decode ⟨0x5F0000#24, 0#128⟩ = .error (.roundKeyIndexOutOfRange 15#4) ∧
  decode ⟨0x600000#24, 0#128⟩ = .ok .keyexpand ∧
  decode ⟨0x700000#24, 0#128⟩ = .ok .encrypt ∧
  decode ⟨0x800000#24, 1#128⟩ = .ok (.lds #v[0, 0, 0, 0, 0, 0, 0, 0, 0, 0, 0, 0, 0, 0, 0, 1]) ∧
  decode ⟨0x900000#24, 1#128⟩ = .ok (.ldk #v[0, 0, 0, 0, 0, 0, 0, 0, 0, 0, 0, 0, 0, 0, 0, 1]) ∧
  decode ⟨0xA00000#24, 0#128⟩ = .error (.reservedOpcode 0xA#4) ∧
  decode ⟨0xFFFFFF#24, 0#128⟩ = .error (.reservedOpcode 0xF#4)

/-- Decoding the canonical command of a well-formed instruction gives the instruction back, for every operand
(R79, R80). -/
def Obligations.DecodeOfEncodeIsInstruction : Prop :=
  ∀ i : Instr, i.wf = true → decode (encode i) = .ok i

/-- R79: what every command word decodes to, the word written as its four fields in order (R71), and how many of the
2^24 words are legal. -/
def Obligations.DecoderMapsEveryWord : Prop :=
  (∀ (op k : BitVec 4) (a b : Byte) (din : BitVec 128),
    decode ⟨op ++ k ++ a ++ b, din⟩ =
      match op.toNat with
      | 0 => .ok (.gfmul a b)
      | 1 => .ok (.sbox a)
      | 2 => .ok .subbytes
      | 3 => .ok .shiftrows
      | 4 => .ok .mixcolumns
      | 5 => if k.toNat ≤ 10 then .ok (.addroundkey k) else .error (.roundKeyIndexOutOfRange k)
      | 6 => .ok .keyexpand
      | 7 => .ok .encrypt
      | 8 => .ok (.lds (blockOf fun i => din.extractLsb' (120 - 8 * i.val) 8))
      | 9 => .ok (.ldk (blockOf fun i => din.extractLsb' (120 - 8 * i.val) 8))
      | _ => .error (.reservedOpcode op)) ∧
  ((Finset.range (2 ^ 24)).filter fun w => rejected ⟨BitVec.ofNat 24 w, 0#128⟩ = false).card = 10158080 ∧
  ((Finset.range (2 ^ 24)).filter fun w => rejected ⟨BitVec.ofNat 24 w, 0#128⟩ = true).card = 6619136

/-- R77: two commands that differ only in fields their format does not read decode alike and do the same; the
encoder's command is the canonical one, with every ignored field zero; the all-zero word is `GFMUL 0x00, 0x00`. -/
def Obligations.IgnoredFieldsHaveNoEffect : Prop :=
  (∀ (c d : Command) (s : State), canonicalOf c = canonicalOf d → decode c = decode d ∧ runCommand c s = runCommand d s) ∧
  (∀ (c : Command) (i : Instr), decode c = .ok i → encode i = canonicalOf c) ∧
  (∀ (din : BitVec 128) (s : State), decode ⟨0x000000#24, din⟩ = .ok (.gfmul 0x00#8 0x00#8) ∧
    runCommand ⟨0x000000#24, din⟩ s = .next { s with RES := 0x00#8 })

/-! ## The one exception -/

/-- R75, R76: performing an illegal command sets `STATUS.ERR` and changes nothing else, whatever its other bits
and `DIN` are. -/
def Obligations.IllegalCommandSetsErrOnly : Prop :=
  ∀ (s : State) (c : Command), IllegalWord c.cmd → runCommand c s = .next { s with STATUS := s.STATUS ||| 0x01#8 }

/-- R180, R181: the words that raise `InvalidInput` are exactly those of R75 and R76; every other command decodes to a
well-formed instruction, which completes on every state and leaves `STATUS.ERR` as it was. -/
def Obligations.LegalCommandCompletes : Prop :=
  (∀ c : Command, rejected c = true ↔ IllegalWord c.cmd) ∧
  ∀ (c : Command) (s : State), ¬ IllegalWord c.cmd →
    ∃ i t, decode c = .ok i ∧ i.wf = true ∧ exec i s = .next t ∧ errOf t.STATUS = errOf s.STATUS

/-- R187: once 1, `ERR` stays 1 through every step but a reset; a second illegal command changes nothing; a command
does after an error what it does before one, the flag apart. -/
def Obligations.ErrStaysUntilReset : Prop :=
  (∀ s t : State, step s = .next t → errOf s.STATUS = true → s.host.head? ≠ some .reset → errOf t.STATUS = true) ∧
  (∀ s : State, raiseInvalidInput (raiseInvalidInput s) = raiseInvalidInput s) ∧
  (∀ (i : Instr) (s t : State), exec i s = .next t →
    exec i { s with STATUS := s.STATUS ||| 0x01#8 } = .next { t with STATUS := t.STATUS ||| 0x01#8 })

/-! ## The commands of the two byte units -/

/-- R105: `GFMUL a, b` writes the product to `RES` and changes nothing else; swapping the operand fields never changes
what it does; the rule's corner cases and worked example. -/
def Obligations.GfmulWritesProduct : Prop :=
  (∀ (a b : Byte) (s : State), exec (.gfmul a b) s = .next { s with RES := gfmul a b }) ∧
  (∀ (a b : Byte) (s : State), exec (.gfmul a b) s = exec (.gfmul b a) s) ∧
  (∀ a : Byte, gfmul a 0x00#8 = 0x00#8 ∧ gfmul 0x00#8 a = 0x00#8 ∧ gfmul a 0x01#8 = a) ∧
  gfmul 0x57#8 0x83#8 = 0xC1#8

/-- R103: the multiplier's loop computes the exclusive or of `xtime^i(a)` over the set bits `i` of `b`, which is the
carry-less product reduced modulo `POLY`, and doubling is one shift with reduction. -/
def Obligations.GfmulIsReducedPolynomialProduct : Prop :=
  (∀ a b : Byte, gfmul a b = productClosedForm a b) ∧
  (∀ a b : Byte, gfmul a b = reduceByPoly (carrylessProduct a b)) ∧
  (∀ v : Byte, gfmul v 0x02#8 = timesX v)

/-- R102, laws 2 to 7. -/
def Obligations.FieldLaws : Prop :=
  (∀ a b : Byte, gfmul a b = gfmul b a) ∧
  (∀ a b c : Byte, gfmul a (b ^^^ c) = gfmul a b ^^^ gfmul a c) ∧
  (∀ a : Byte, gfmul a 0x00#8 = 0x00#8 ∧ gfmul 0x00#8 a = 0x00#8) ∧
  (∀ a : Byte, gfmul a 0x01#8 = a ∧ gfmul 0x01#8 a = a) ∧
  gfinv 0x00#8 = 0x00#8 ∧
  (∀ a b c : Byte, gfmul (gfmul a b) c = gfmul a (gfmul b c)) ∧
  (∀ a : Byte, a ≠ 0x00#8 → ∃! i : Byte, gfmul a i = 0x01#8)

/-- R110: the inverse of zero is zero; the inverse of any other byte is the one byte whose product with it is 0x01; and
the inverse of the inverse is the byte. -/
def Obligations.InverseIsTheUniqueMatch : Prop :=
  gfinv 0x00#8 = 0x00#8 ∧ gfinv 0x01#8 = 0x01#8 ∧
  (∀ v : Byte, v ≠ 0x00#8 → gfmul v (gfinv v) = 0x01#8 ∧ ∀ i : Byte, gfmul v i = 0x01#8 → i = gfinv v) ∧
  (∀ v : Byte, gfinv (gfinv v) = v)

/-- R115: the inverse agrees with the table for all 256 inputs. -/
def Obligations.InverseAgreesWithTable : Prop :=
  ∀ v : Byte, gfinv v = tableAt inverseTable v

/-- R111: the affine transform bit by bit, its form by rotations, and the rule's four examples. -/
def Obligations.AffineByBitsAndRotations : Prop :=
  (∀ (v : Byte) (i : Fin 8), (affine v).getLsbD i.val =
    (v.getLsbD i.val ^^ v.getLsbD ((i.val + 4) % 8) ^^ v.getLsbD ((i.val + 5) % 8) ^^ v.getLsbD ((i.val + 6) % 8) ^^
      v.getLsbD ((i.val + 7) % 8) ^^ (0x63#8).getLsbD i.val)) ∧
  (∀ v : Byte, affine v =
    v ^^^ v.rotateLeft 1 ^^^ v.rotateLeft 2 ^^^ v.rotateLeft 3 ^^^ v.rotateLeft 4 ^^^ 0x63#8) ∧
  affine 0x00#8 = 0x63#8 ∧ affine 0x01#8 = 0x7C#8 ∧ affine 0xCA#8 = 0xED#8 ∧ affine 0xFF#8 = 0x9C#8

/-- R113: the substitution box is a bijection, takes 0x00 to 0x63, and has no input with `sbox(v) = v` and none with
`sbox(v) = v ^ 0xFF`. -/
def Obligations.SboxIsBijectionWithoutFixedPoint : Prop :=
  Function.Bijective sbox ∧ sbox 0x00#8 = 0x63#8 ∧ (∀ v : Byte, sbox v ≠ v) ∧ ∀ v : Byte, sbox v ≠ v ^^^ 0xFF#8

/-- R114, R116: `SBOX a` writes the table's entry for `a` to `RES` and changes nothing else. -/
def Obligations.SboxWritesTableEntry : Prop :=
  ∀ (a : Byte) (s : State), exec (.sbox a) s = .next { s with RES := tableAt sboxTable a }

/-! ## The state transforms -/

/-- R121, R122: `SUBBYTES` replaces every byte of `S` with its S-box image and changes nothing else; every byte of `S`
changes. -/
def Obligations.SubbytesSubstitutesEveryByte : Prop :=
  ∀ s : State,
    exec .subbytes s = .next { s with S := blockOf fun i => tableAt sboxTable (byteAt s.S i) } ∧
    ∀ i : Fin 16, tableAt sboxTable (byteAt s.S i) ≠ byteAt s.S i

/-- R123, R124: `SHIFTROWS` permutes the 16 bytes of `S` as the rule lists them and changes nothing else; four in a row
restore the state. -/
def Obligations.ShiftrowsPermutesBytes : Prop :=
  ∀ s : State,
    exec .shiftrows s = .next { s with
      S := #v[byteAt s.S 0, byteAt s.S 5, byteAt s.S 10, byteAt s.S 15, byteAt s.S 4, byteAt s.S 9, byteAt s.S 14,
        byteAt s.S 3, byteAt s.S 8, byteAt s.S 13, byteAt s.S 2, byteAt s.S 7, byteAt s.S 12, byteAt s.S 1, byteAt s.S 6,
        byteAt s.S 11] } ∧
    runInstrs [.shiftrows, .shiftrows, .shiftrows, .shiftrows] s = .next s

/-- R125, R126, R127: `MIXCOLUMNS` replaces every cell by the row of the matrix (02 03 01 01, rotated with the row) times
the old column, and changes nothing else. -/
def Obligations.MixcolumnsMultipliesByMatrix : Prop :=
  ∀ s : State,
    exec .mixcolumns s = .next { s with
      S := matrixOf fun r c =>
        gfmul 0x02#8 (cell s.S r c) ^^^ gfmul 0x03#8 (cell s.S (r + 1) c) ^^^ cell s.S (r + 2) c ^^^ cell s.S (r + 3) c }

/-- R126, R127: `mix_columns` works column by column and is linear over exclusive or; a column of four equal bytes is
unchanged, the unit columns give the columns of the matrix, and the source's reference column goes to its image. -/
def Obligations.MixColumnsIsLinear : Prop :=
  (∀ (M : Block) (c : Fin 4), column (mixColumns M) c = mixColumn (column M c)) ∧
  (∀ M N : Block, mixColumns (addRoundKey M N) = addRoundKey (mixColumns M) (mixColumns N)) ∧
  (∀ v : Byte, mixColumn #v[v, v, v, v] = #v[v, v, v, v]) ∧
  mixColumn #v[0x01#8, 0x00#8, 0x00#8, 0x00#8] = #v[0x02#8, 0x01#8, 0x01#8, 0x03#8] ∧
  mixColumn #v[0x00#8, 0x01#8, 0x00#8, 0x00#8] = #v[0x03#8, 0x02#8, 0x01#8, 0x01#8] ∧
  mixColumn #v[0x00#8, 0x00#8, 0x01#8, 0x00#8] = #v[0x01#8, 0x03#8, 0x02#8, 0x01#8] ∧
  mixColumn #v[0x00#8, 0x00#8, 0x00#8, 0x01#8] = #v[0x01#8, 0x01#8, 0x03#8, 0x02#8] ∧
  mixColumn #v[0xdb#8, 0x13#8, 0x53#8, 0x45#8] = #v[0x8e#8, 0x4d#8, 0xa1#8, 0xbc#8]

/-- R130: `ADDROUNDKEY k` with `k` in 0..10 exclusive-ors round key `k` into `S` byte by byte and changes nothing else,
so that issuing it twice restores the state; with `k` in 11..15 it sets `STATUS.ERR` and changes nothing else. -/
def Obligations.AddroundkeyAddsBankEntry : Prop :=
  (∀ (k : BitVec 4) (s : State) (h : k.toNat ≤ 10),
    exec (.addroundkey k) s = .next { s with
      S := blockOf fun i => byteAt s.S i ^^^ byteAt (bankAt s.RK ⟨k.toNat, Nat.lt_succ_of_le h⟩) i } ∧
    runInstrs [.addroundkey k, .addroundkey k] s = .next s) ∧
  (∀ (k : BitVec 4) (s : State), 11 ≤ k.toNat →
    exec (.addroundkey k) s = .next { s with STATUS := s.STATUS ||| 0x01#8 })

/-- R129: the laws of `add_round_key`. -/
def Obligations.AddRoundKeyLaws : Prop :=
  (∀ M : Block, addRoundKey M zeroBlock = M) ∧
  (∀ M K : Block, addRoundKey (addRoundKey M K) K = M) ∧
  (∀ M K : Block, addRoundKey M K = addRoundKey K M) ∧
  (∀ M : Block, addRoundKey M M = zeroBlock)

/-! ## The key schedule -/

/-- R141, R144: `KEYEXPAND` writes all of `RK` and nothing else: entry 0 is `KEY`, and each later entry follows from the
one before it by the recurrence of R141 in its block view. -/
def Obligations.KeyexpandWritesSchedule : Prop :=
  ∀ s : State, ∃ W : Bank,
    exec .keyexpand s = .next { s with RK := W } ∧
    bankAt W 0 = s.KEY ∧
    ∀ r : Fin 10,
      byteAt (bankAt W r.succ) 0 = byteAt (bankAt W r.castSucc) 0 ^^^ sbox (byteAt (bankAt W r.castSucc) 13) ^^^
        Config.rcon[r] ∧
      byteAt (bankAt W r.succ) 1 = byteAt (bankAt W r.castSucc) 1 ^^^ sbox (byteAt (bankAt W r.castSucc) 14) ∧
      byteAt (bankAt W r.succ) 2 = byteAt (bankAt W r.castSucc) 2 ^^^ sbox (byteAt (bankAt W r.castSucc) 15) ∧
      byteAt (bankAt W r.succ) 3 = byteAt (bankAt W r.castSucc) 3 ^^^ sbox (byteAt (bankAt W r.castSucc) 12) ∧
      ∀ j : Fin 12, byteAt (bankAt W r.succ) ⟨j.val + 4, by omega⟩ =
        byteAt (bankAt W r.castSucc) ⟨j.val + 4, by omega⟩ ^^^ byteAt (bankAt W r.succ) ⟨j.val, by omega⟩

/-- R140: the ten round constants, each the field-doubling of the one before it. -/
def Obligations.RoundConstantsDouble : Prop :=
  Config.rcon = #v[0x01#8, 0x02#8, 0x04#8, 0x08#8, 0x10#8, 0x20#8, 0x40#8, 0x80#8, 0x1B#8, 0x36#8] ∧
  ∀ r : Fin 9, Config.rcon[r.val + 1] = gfmul Config.rcon[r.val] 0x02#8

/-- Derived from R203, R171, R130 and R154: `LDK` then `ADDROUNDKEY k` adds the `RK[k]` held before; `LDK`, `KEYEXPAND`,
`ADDROUNDKEY 0` adds the new key; `ENCRYPT` does not depend on what the bank held. That no command but `KEYEXPAND` and
`ENCRYPT` changes `RK` is `OnlyTheirCommandsWriteRegisters`. -/
def Obligations.StaleRoundKeys : Prop :=
  (∀ (s : State) (d : Block) (k : BitVec 4) (h : k.toNat ≤ 10),
    runInstrs [.ldk d, .addroundkey k] s =
      .next { s with KEY := d, S := addRoundKey s.S (bankAt s.RK ⟨k.toNat, Nat.lt_succ_of_le h⟩) }) ∧
  (∀ (s : State) (d : Block),
    runInstrs [.ldk d, .keyexpand, .addroundkey 0#4] s =
      .next { s with KEY := d, RK := keyExpand d, S := addRoundKey s.S d }) ∧
  (∀ (s : State) (R : Bank), exec .encrypt { s with RK := R } = exec .encrypt s)

/-! ## The driver -/

/-- R150, R153, R154: `ENCRYPT` expands `KEY` into `RK`, leaves in `TR[0..10]` the state after each round, the ciphertext
`TR[10]` in `S` and 10 in `STATUS.RND`, and changes nothing else. -/
def Obligations.EncryptRunsElevenRounds : Prop :=
  ∀ s : State, ∃ t : State,
    exec .encrypt s = .next t ∧
    t.RK = keyExpand s.KEY ∧
    bankAt t.TR 0 = addRoundKey s.S s.KEY ∧
    (∀ r : Fin 9, bankAt t.TR ⟨r.val + 1, by omega⟩ =
      addRoundKey (mixColumns (shiftRows (subBytes (bankAt t.TR ⟨r.val, by omega⟩)))) (bankAt t.RK ⟨r.val + 1, by omega⟩)) ∧
    bankAt t.TR 10 = addRoundKey (shiftRows (subBytes (bankAt t.TR 9))) (bankAt t.RK 10) ∧
    t.S = bankAt t.TR 10 ∧
    rndOf t.STATUS = 10#4 ∧ errOf t.STATUS = errOf s.STATUS ∧ reservedOf t.STATUS = reservedOf s.STATUS ∧
    t = { s with S := t.S, RK := t.RK, TR := t.TR, STATUS := t.STATUS }

/-- R155: from any state the 41 primitive commands leave the same `S`, `KEY` and `RK` as the single command `ENCRYPT`;
they differ from it only in `TR` and `STATUS`, which they do not write. -/
def Obligations.EncryptEqualsPrimitiveCommands : Prop :=
  encryptByCommands.length = 41 ∧
  ∀ s : State, ∃ t u : State,
    exec .encrypt s = .next t ∧ runInstrs encryptByCommands s = .next u ∧
    u = { t with TR := s.TR, STATUS := s.STATUS }

/-- R156: the known-answer test. -/
def Obligations.KnownAnswer : Prop :=
  ∀ s : State, s.S = zeroBlock → s.KEY = zeroBlock →
    ∃ t : State, exec .encrypt s = .next t ∧ t.S = blockOfFlat 0x66e94bd4ef8a2c3b884cfa59ca342b2e#128

/-- R152: round 10 never mixes columns, and on the input of 95_test_vectors.md section 2.7 its output differs from what
a round with MixColumns would give. -/
def Obligations.FinalRoundOmitsMixColumns : Prop :=
  (∀ (M : Block) (W : Bank), roundStep 10 M W = addRoundKey (shiftRows (subBytes M)) (bankAt W 10)) ∧
  ∀ W : Bank, bankAt W 10 = blockOfFlat 0xb4ef5bcb3e92e21123e951cf6f8f188e#128 →
    roundStep 10 (blockOfFlat 0x7ffe0e9551a566350e347c472929eccb#128) W =
      blockOfFlat 0x66e94bd4ef8a2c3b884cfa59ca342b2e#128 ∧
    addRoundKey (mixColumns (shiftRows (subBytes (blockOfFlat 0x7ffe0e9551a566350e347c472929eccb#128)))) (bankAt W 10) =
      blockOfFlat 0x0e1e8e8e4b10d2fba763b3107bb29ba9#128

/-- R157: the trace never feeds back: whatever `TR` holds, every command does the same, and no command but `ENCRYPT`
writes `TR`. -/
def Obligations.TraceNeverFeedsBack : Prop :=
  ∀ (i : Instr) (s t : State) (T : Bank), exec i s = .next t →
    exec i { s with TR := T } = .next { t with TR := if i = .encrypt then t.TR else T }

/-- R158: `LDS P; LDK K; ENCRYPT`, presented at the port of an idle block with any values in the ignored fields, ends
after its three commands with the ciphertext in `S` and the key in `KEY`, the run ended and `ERR` as it was. That the
host's actions are a list and that a command takes two steps is the model's choice (log entries 1 and 2). -/
def Obligations.LoadLoadEncryptGivesCiphertext : Prop :=
  ∀ (s : State) (p k din : BitVec 128) (k1 k2 k3 : BitVec 4) (a1 a2 a3 b1 b2 b3 : Byte),
    s.busy = none →
    s.host = [.issue ⟨0x8#4 ++ k1 ++ a1 ++ b1, p⟩, .wait, .issue ⟨0x9#4 ++ k2 ++ a2 ++ b2, k⟩, .wait,
      .issue ⟨0x7#4 ++ k3 ++ a3 ++ b3, din⟩, .wait] →
    ∃ t : State, run 6 s = .next t ∧ runEnded t = true ∧
      t.S = ciphertext (blockOfFlat p) (blockOfFlat k) ∧ t.KEY = blockOfFlat k ∧
      t.RES = s.RES ∧ errOf t.STATUS = errOf s.STATUS

/-! ## The loads and the views -/

/-- R170: `LDS` writes its block to `S` and changes nothing else; its block is `DIN` cut into bytes, seen as a matrix
column by column. -/
def Obligations.LdsLoadsBlock : Prop :=
  (∀ (d : Block) (s : State), exec (.lds d) s = .next { s with S := d }) ∧
  ∀ (k : BitVec 4) (a b : Byte) (din : BitVec 128), ∃ d : Block,
    decode ⟨0x8#4 ++ k ++ a ++ b, din⟩ = .ok (.lds d) ∧
    (∀ i : Fin 16, byteAt d i = din.extractLsb' (120 - 8 * i.val) 8) ∧
    ∀ r c : Fin 4, cell d r c = din.extractLsb' (120 - 8 * (r.val + 4 * c.val)) 8

/-- R171: `LDK` writes its block to `KEY` and changes nothing else, `RK` included; its block is `DIN` cut into bytes. -/
def Obligations.LdkLoadsKey : Prop :=
  (∀ (d : Block) (s : State), exec (.ldk d) s = .next { s with KEY := d }) ∧
  ∀ (k : BitVec 4) (a b : Byte) (din : BitVec 128), ∃ d : Block,
    decode ⟨0x9#4 ++ k ++ a ++ b, din⟩ = .ok (.ldk d) ∧
    ∀ i : Fin 16, byteAt d i = din.extractLsb' (120 - 8 * i.val) 8

/-- R51: the flat 128-bit and 1408-bit views: where each byte and each entry lies, and that a block and its flat view
determine each other. -/
def Obligations.FlatViewsPlaceBytes : Prop :=
  (∀ (B : Block) (i : Fin 16), (flatOfBlock B).extractLsb' (120 - 8 * i.val) 8 = byteAt B i) ∧
  (∀ v : BitVec 128, flatOfBlock (blockOfFlat v) = v) ∧
  (∀ (W : Bank) (k : Fin 11), (flatOfBank W).extractLsb' (1280 - 128 * k.val) 128 = flatOfBlock (bankAt W k))

/-- R22: the block-to-matrix mapping, in both directions. -/
def Obligations.MatrixMappingIsColumnMajor : Prop :=
  (∀ (B : Block) (i : Fin 16), cell B ⟨i.val % 4, by omega⟩ ⟨i.val / 4, by omega⟩ = byteAt B i) ∧
  (∀ (B : Block) (r c : Fin 4), cell B r c = byteAt B ⟨r.val + 4 * c.val, by omega⟩) ∧
  (∀ f : Fin 4 → Fin 4 → Byte, ∃! B : Block, ∀ r c, cell B r c = f r c)

/-! ## Reset, the status register and the host interface -/

/-- R33: after reset every register holds zero, and the reset bank is not the expansion of the reset key. -/
def Obligations.ResetRegistersAreZero : Prop :=
  (∀ i : Fin 16, byteAt State.reset.S i = 0x00#8) ∧ (∀ i : Fin 16, byteAt State.reset.KEY i = 0x00#8) ∧
  (∀ (k : Fin 11) (i : Fin 16), byteAt (bankAt State.reset.RK k) i = 0x00#8) ∧
  (∀ (k : Fin 11) (i : Fin 16), byteAt (bankAt State.reset.TR k) i = 0x00#8) ∧
  State.reset.RES = 0x00#8 ∧
  errOf State.reset.STATUS = false ∧ reservedOf State.reset.STATUS = 0#3 ∧ rndOf State.reset.STATUS = 0#4 ∧
  bankAt (keyExpand State.reset.KEY) 1 = blockOfFlat 0x62636363626363636263636362636363#128

/-- R200, R201: a reset, whether the block is idle or busy, leaves every register at its reset value and the block
idle; a command in progress leaves nothing. That the host's list and its last reading stay is the model's choice (log
entries 1 and 3). -/
def Obligations.ResetAtAnyTime : Prop :=
  ∀ (s : State) (rest : List HostAction), s.host = .reset :: rest →
    step s = .next { State.reset with host := rest, lastRead := s.lastRead }

/-- R27: what the host reads of `STATUS`: `ERR` in bit 0, bits 3:1 zero, `RND` in bits 7:4. -/
def Obligations.StatusReadsItsFields : Prop :=
  ∀ s : State, ∃ v : Byte, readReg s .STATUS = .byte v ∧
    v.getLsbD 0 = errOf s.STATUS ∧ v.getLsbD 1 = false ∧ v.getLsbD 2 = false ∧ v.getLsbD 3 = false ∧
    v.extractLsb' 4 4 = rndOf s.STATUS

/-- R55, R172: a host read of an idle block returns the register's value and changes no register of the block. Where the
value is kept is the model's choice (log entry 3). -/
def Obligations.HostReadHasNoSideEffect : Prop :=
  ∀ (s : State) (r : Reg) (rest : List HostAction), s.busy = none → s.host = .read r :: rest →
    step s = .next { s with
      host := rest
      lastRead := match r with
        | .S => some (.block s.S)
        | .KEY => some (.block s.KEY)
        | .RK k => some (.block (bankAt s.RK k))
        | .TR k => some (.block (bankAt s.TR k))
        | .RES => some (.byte s.RES)
        | .STATUS => some (.byte (s.STATUS &&& 0xF1#8)) }

/-- R61, R194, R200: an idle block samples the command the host issues and changes no register until it runs it; with
nothing from the host it waits. The list of host actions, the separate step of acceptance and the waiting step are the
model's choice (log entries 1, 2 and 6). -/
def Obligations.IdleBlockAcceptsOrWaits : Prop :=
  (∀ (s : State) (c : Command) (rest : List HostAction), s.busy = none → s.host = .issue c :: rest →
    step s = .next { s with busy := some c, host := rest }) ∧
  (∀ (s : State) (rest : List HostAction), s.busy = none → s.host = .wait :: rest →
    step s = .next { s with host := rest }) ∧
  (∀ s : State, s.busy = none → s.host = [] → step s = .next s)

/-- The link from a step to a meaning (R79, R185, R194): a busy block whose sampled command decodes to `i` runs `exec i`
and is idle, the host's wait taken; one whose command is rejected raises `InvalidInput`; the word `withFetchWord` places
is run by the very next step. The host's list of actions and the separate step of acceptance are the model's choice (log
entries 1, 2 and 4). -/
def Obligations.StepRunsDecodedInstruction : Prop :=
  (∀ (s : State) (c : Command) (i : Instr), s.busy = some c → decode c = .ok i → LetsComplete s →
    step s = exec i { s with busy := none, host := s.host.tail }) ∧
  (∀ (s : State) (c : Command), s.busy = some c → rejected c = true → LetsComplete s →
    step s = .next { s with STATUS := s.STATUS ||| 0x01#8, busy := none, host := s.host.tail }) ∧
  (∀ (s : State) (nbits w : Nat) (i : Instr), decodeTableWord nbits w = some i →
    step (s.withFetchWord nbits w) = exec i { s with busy := none })

/-- R194: a step has no meaning exactly when the host issues or reads while the block is busy; that the model refuses
there is its choice (log entry 8). No step faults, because the model has no fault: `InvalidInput` completes (R185) and
there is no other exception (R181), which is the model's reading (log entry 7). -/
def Obligations.RefusalExactlyWhenHostActsWhileBusy : Prop :=
  (∀ s : State, (∃ r, step s = .refused r) ↔
    (s.busy ≠ none ∧ ∃ rest, (∃ c, s.host = .issue c :: rest) ∨ ∃ r, s.host = .read r :: rest)) ∧
  (∀ (s : State) (f : Fault), step s ≠ .fault f)

/-- R194 ("a busy block always becomes idle again without further host action"): whatever a host that keeps the rule of
R194 does, every step answers, and after at most one step more than it has actions the run has ended. The count of steps is the model's (log entries 1 and
2). -/
def Obligations.CarefulHostRunEnds : Prop :=
  ∀ s : State, careful s.busy.isSome s.host = true →
    ∃ k t, k ≤ s.host.length + 1 ∧ run k s = .next t ∧ runEnded t = true

/-- R208 with R180 and R187: where a run of a careful host that applies no reset has ended, `ERR` is 1 exactly when it was
1 at the start or some command that ran was illegal. The host's list is the model's choice (log entry 1). -/
def Obligations.RunWentWrongExactlyByIllegalCommand : Prop :=
  ∀ (n : Nat) (s t : State), careful s.busy.isSome s.host = true → HostAction.reset ∉ s.host →
    run n s = .next t → runEnded t = true →
    wentWrong t = (wentWrong s || s.busy.any rejected || s.host.any issuesRejected)

/-! ## Whole-machine rules -/

/-- R34, the `W` entries: a command changes no part its row does not show; nor does it touch the reserved bits of
`STATUS` or the host's side. -/
def Obligations.AccessMatrixFrame : Prop :=
  ∀ (i : Instr) (s t : State), exec i s = .next t →
    (∀ p : Part, writesPart i p = false → SameAt s t p) ∧
    reservedOf t.STATUS = reservedOf s.STATUS ∧
    t.busy = s.busy ∧ t.host = s.host ∧ t.lastRead = s.lastRead

/-- R34, the `R` entries: what a command writes depends on no part its row does not show as read: two states that agree
on what it reads agree, after it, on what it writes. -/
def Obligations.AccessMatrixReads : Prop :=
  ∀ (i : Instr) (s s' t t' : State), (∀ p : Part, readsPart i p = true → SameAt s s' p) →
    exec i s = .next t → exec i s' = .next t' → ∀ p : Part, writesPart i p = true → SameAt t t' p

/-- R23 to R26 and R28: which completed commands, beside a reset, can change `KEY`, `RK`, `TR`, `RES` and `RND` in a step. -/
def Obligations.OnlyTheirCommandsWriteRegisters : Prop :=
  ∀ s t : State, step s = .next t → s.host.head? ≠ some .reset →
    (t.KEY ≠ s.KEY → ∃ c d, s.busy = some c ∧ decode c = .ok (.ldk d)) ∧
    (t.RK ≠ s.RK → ∃ c, s.busy = some c ∧ (decode c = .ok .keyexpand ∨ decode c = .ok .encrypt)) ∧
    (t.TR ≠ s.TR → ∃ c, s.busy = some c ∧ decode c = .ok .encrypt) ∧
    (t.RES ≠ s.RES → ∃ c a, s.busy = some c ∧ ((∃ b, decode c = .ok (.gfmul a b)) ∨ decode c = .ok (.sbox a))) ∧
    (rndOf t.STATUS ≠ rndOf s.STATUS → rndOf t.STATUS = 10#4 ∧ ∃ c, s.busy = some c ∧ decode c = .ok .encrypt)

/-- R55: the commands that are idempotent. -/
def Obligations.IdempotentCommands : Prop :=
  ∀ (i : Instr) (s t : State),
    ((∃ a b, i = .gfmul a b) ∨ (∃ a, i = .sbox a) ∨ (∃ d, i = .lds d) ∨ (∃ d, i = .ldk d) ∨ i = .keyexpand) →
    exec i s = .next t → exec i t = .next t

/-- Every step keeps the invariant of the machine: the reserved bits of `STATUS` are zero, `RND` is 0 or 10, the bank
`RK` is all zero or one whole expansion, and `TR` is all zero or the whole trace of one encryption (R24, R25, R27, R28,
R54). -/
def Obligations.StepKeepsInvariant : Prop :=
  ∀ s t : State, MachineInvariant s → step s = .next t → MachineInvariant t

/-- The invariant holds after reset (R33). -/
def Obligations.InvariantHoldsAtReset : Prop := MachineInvariant State.reset

/-- R63, R191: when one instance takes a step every other instance is as before, and what it becomes depends on its own
state alone. That one instance moves at a time is the model's choice (log entry 11). -/
def Obligations.InstancesShareNothing : Prop :=
  ∀ (l l' : List State) (n : Nat), stepInstance l n = some l' →
    l'.length = l.length ∧ (∀ m, m ≠ n → l'[m]? = l[m]?) ∧
    ∃ s t, l[n]? = some s ∧ step s = .next t ∧ l'[n]? = some t

/-! ## The assembler notation -/

/-- R81: what the pseudo-instructions do: `ROUND r` is round `r` of the driver and `FINALROUND` round 10, with the
round keys of the bank as it is; `XTIME` doubles. -/
def Obligations.PseudoInstructionsAreRounds : Prop :=
  (∀ (s : State) (r : BitVec 4) (h : 1 ≤ r.toNat ∧ r.toNat ≤ 9),
    runInstrs (expandPseudo (.round r)) s =
      .next { s with S := roundStep ⟨r.toNat, Nat.lt_of_le_of_lt h.2 (by decide)⟩ s.S s.RK }) ∧
  (∀ s : State, runInstrs (expandPseudo .finalround) s = .next { s with S := roundStep 10 s.S s.RK }) ∧
  (∀ (s : State) (a : Byte), runInstrs (expandPseudo (.xtime a)) s = .next { s with RES := timesX a })

/-- R80, R81: lines of the notation and the canonical command words they assemble to. How a line is cut into words is
the model's choice (log entry 13). -/
def Obligations.AssemblerGivesCanonicalWords : Prop :=
  assembleLine "GFMUL 0x57, 0x83 ; product" = some [⟨0x005783#24, 0#128⟩] ∧
  assembleLine "SBOX 0x53" = some [⟨0x105300#24, 0#128⟩] ∧
  assembleLine "ADDROUNDKEY 10" = some [⟨0x5A0000#24, 0#128⟩] ∧
  assembleLine "ADDROUNDKEY 11" = none ∧
  assembleLine "LDS 00112233445566778899aabbccddeeff" = some [⟨0x800000#24, 0x00112233445566778899aabbccddeeff#128⟩] ∧
  assembleLine "ROUND 2" =
    some [⟨0x200000#24, 0#128⟩, ⟨0x300000#24, 0#128⟩, ⟨0x400000#24, 0#128⟩, ⟨0x520000#24, 0#128⟩]
end

