-- ==== Sys2Proof/Laws/Field.lean ====
section
/-!
SUPPORT. The small lemmas of the multiplier's loop (40_gf256_multiplier.md R101) and of the inverse search
(41_aes_sbox_gen.md R110).
-/

namespace Sys2Proof.Machine

open Sys2Proof

/-- The shift with reduction is linear over exclusive or. -/
theorem xtime_xor (x y : Byte) : xtime (x ^^^ y) = xtime x ^^^ xtime y := by
  unfold xtime
  by_cases hx : x.getLsbD 7 <;> by_cases hy : y.getLsbD 7 <;> simp_all [BitVec.shiftLeft_xor_distrib] <;> grind

/-- What the accumulator holds at the start comes out of the loop exclusive-ored with the rest. -/
theorem gfmulLoop_acc (n : Nat) (p q x y : Byte) : gfmulLoop n (p ^^^ q) x y = p ^^^ gfmulLoop n q x y := by
  induction n generalizing q x y with
  | zero => rfl
  | succ n ih =>
    simp only [gfmulLoop, ← ih]
    congr 1
    split
    · rw [BitVec.xor_assoc]
    · rfl

/-- What the search answers is a candidate it tried, or 0x00. -/
theorem searchInverse_cases (v : Byte) (n : Nat) :
    searchInverse v n = 0x00#8 ∨ gfmul v (searchInverse v n) = 0x01#8 := by
  induction n with
  | zero => exact .inl rfl
  | succ n ih =>
    unfold searchInverse
    split
    · exact .inr (by assumption)
    · exact ih

end Sys2Proof.Machine
end

