-- ==== Sys2Proof/Laws/Flags.lean ====
section
/-!
SUPPORT. What writing one field of STATUS does to each field (10_state.md R27).
-/

namespace Sys2Proof.Machine

open Sys2Proof

@[simp] theorem errOf_setErr (w : Byte) : errOf (setErr w) = true := by
  simp [errOf, setErr]

@[simp] theorem rndOf_setErr (w : Byte) : rndOf (setErr w) = rndOf w := by
  unfold rndOf setErr
  ext i hi
  interval_cases i <;> simp

@[simp] theorem reservedOf_setErr (w : Byte) : reservedOf (setErr w) = reservedOf w := by
  unfold reservedOf setErr
  ext i hi
  interval_cases i <;> simp

@[simp] theorem setErr_setErr (w : Byte) : setErr (setErr w) = setErr w := by
  simp [setErr, BitVec.or_assoc]

@[simp] theorem errOf_setRnd (w : Byte) (r : BitVec 4) : errOf (setRnd w r) = errOf w := by
  simp [errOf, setRnd]

@[simp] theorem rndOf_setRnd (w : Byte) (r : BitVec 4) : rndOf (setRnd w r) = r := by
  unfold rndOf setRnd
  ext i hi
  interval_cases i <;> simp

@[simp] theorem reservedOf_setRnd (w : Byte) (r : BitVec 4) : reservedOf (setRnd w r) = reservedOf w := by
  unfold reservedOf setRnd
  ext i hi
  interval_cases i <;> simp

@[simp] theorem errOf_statusView (w : Byte) : errOf (statusView w) = errOf w := by
  simp [errOf, statusView]

@[simp] theorem rndOf_statusView (w : Byte) : rndOf (statusView w) = rndOf w := by
  unfold rndOf statusView
  ext i hi
  interval_cases i <;> simp

@[simp] theorem reservedOf_statusView (w : Byte) : reservedOf (statusView w) = 0#3 := by
  unfold reservedOf statusView
  ext i hi
  interval_cases i <;> simp

end Sys2Proof.Machine
end

