-- ==== Sys2Proof/Laws/Operands.lean ====
section
/-!
SUPPORT. The fields of a command word that was put together from fields (30_encoding.md R71), and what a round-key
index names (R76).
-/

namespace Sys2Proof.Machine

open Sys2Proof

@[simp] theorem opField_commandWord (op k : BitVec 4) (a b : Byte) : opField (commandWord op k a b) = op := by
  unfold opField commandWord
  ext i hi
  interval_cases i <;> simp

@[simp] theorem kField_commandWord (op k : BitVec 4) (a b : Byte) : kField (commandWord op k a b) = k := by
  unfold kField commandWord
  ext i hi
  interval_cases i <;> simp

@[simp] theorem aField_commandWord (op k : BitVec 4) (a b : Byte) : aField (commandWord op k a b) = a := by
  unfold aField commandWord
  ext i hi
  interval_cases i <;> simp

@[simp] theorem bField_commandWord (op k : BitVec 4) (a b : Byte) : bField (commandWord op k a b) = b := by
  unfold bField commandWord
  ext i hi
  interval_cases i <;> simp

/-- A command word is determined by its four fields: they are all of its bits (R71). -/
theorem commandWord_fields (cmd : BitVec 24) :
    commandWord (opField cmd) (kField cmd) (aField cmd) (bField cmd) = cmd := by
  unfold commandWord opField kField aField bField
  ext i hi
  interval_cases i <;> simp

/-- An index 0..10 names the entry of that number. -/
theorem roundKeyIndex_of_le {k : BitVec 4} (h : k.toNat ≤ 10) :
    roundKeyIndex k = some ⟨k.toNat, Nat.lt_succ_of_le h⟩ :=
  dif_pos (Nat.lt_succ_of_le h)

/-- An index 11..15 names nothing. -/
theorem roundKeyIndex_of_gt {k : BitVec 4} (h : 10 < k.toNat) : roundKeyIndex k = none :=
  dif_neg (by omega)

end Sys2Proof.Machine
end

