-- ==== Sys2Proof/Laws/PerInstr.lean ====
section
/-!
SUPPORT. What holds of every command as syntax, one lemma per constructor: the command its encoder gives is canonical
(30_encoding.md R77, R80): the operation code is the row's (R74), and every field its format does not read (R72) is 0.
-/

namespace Sys2Proof.Laws.Canonical

open Sys2Proof Sys2Proof.Machine

/-- The fields the format of a command reads, beside `op`: `k`, `a`, `b` and `DIN` in this order (R72). -/
def reads : Instr → Bool × Bool × Bool × Bool
  | .gfmul _ _ => (false, true, true, false)
  | .sbox _ => (false, true, false, false)
  | .subbytes => (false, false, false, false)
  | .shiftrows => (false, false, false, false)
  | .mixcolumns => (false, false, false, false)
  | .addroundkey _ => (true, false, false, false)
  | .keyexpand => (false, false, false, false)
  | .encrypt => (false, false, false, false)
  | .lds _ => (false, false, false, true)
  | .ldk _ => (false, false, false, true)

def Statement (i : Instr) : Prop :=
  opField (encode i).cmd = opcodeOf i ∧
    ((reads i).1 = false → kField (encode i).cmd = 0#4) ∧
    ((reads i).2.1 = false → aField (encode i).cmd = 0#8) ∧
    ((reads i).2.2.1 = false → bField (encode i).cmd = 0#8) ∧
    ((reads i).2.2.2 = false → (encode i).din = 0#128)

theorem gfmul (a b : Byte) : Statement (.gfmul a b) := by simp [Statement, encode, reads]

theorem sbox (a : Byte) : Statement (.sbox a) := by simp [Statement, encode, reads]

theorem subbytes : Statement .subbytes := by simp [Statement, encode, reads]

theorem shiftrows : Statement .shiftrows := by simp [Statement, encode, reads]

theorem mixcolumns : Statement .mixcolumns := by simp [Statement, encode, reads]

theorem addroundkey (k : BitVec 4) : Statement (.addroundkey k) := by simp [Statement, encode, reads]

theorem keyexpand : Statement .keyexpand := by simp [Statement, encode, reads]

theorem encrypt : Statement .encrypt := by simp [Statement, encode, reads]

theorem lds (d : Block) : Statement (.lds d) := by simp [Statement, encode, reads]

theorem ldk (d : Block) : Statement (.ldk d) := by simp [Statement, encode, reads]

end Sys2Proof.Laws.Canonical
end

