-- ==== Sys2Proof/Laws/State.lean ====
section
/-!
SUPPORT. One lemma per field per update of the state, true by definition, so that no later proof unfolds an update.
-/

namespace Sys2Proof.Machine

open Sys2Proof

@[simp] theorem writeS_S (s : State) (b : Block) : (writeS s b).S = b := rfl
@[simp] theorem writeS_KEY (s : State) (b : Block) : (writeS s b).KEY = s.KEY := rfl
@[simp] theorem writeS_RK (s : State) (b : Block) : (writeS s b).RK = s.RK := rfl
@[simp] theorem writeS_TR (s : State) (b : Block) : (writeS s b).TR = s.TR := rfl
@[simp] theorem writeS_RES (s : State) (b : Block) : (writeS s b).RES = s.RES := rfl
@[simp] theorem writeS_STATUS (s : State) (b : Block) : (writeS s b).STATUS = s.STATUS := rfl
@[simp] theorem writeS_busy (s : State) (b : Block) : (writeS s b).busy = s.busy := rfl
@[simp] theorem writeS_host (s : State) (b : Block) : (writeS s b).host = s.host := rfl
@[simp] theorem writeS_lastRead (s : State) (b : Block) : (writeS s b).lastRead = s.lastRead := rfl

@[simp] theorem writeKey_S (s : State) (b : Block) : (writeKey s b).S = s.S := rfl
@[simp] theorem writeKey_KEY (s : State) (b : Block) : (writeKey s b).KEY = b := rfl
@[simp] theorem writeKey_RK (s : State) (b : Block) : (writeKey s b).RK = s.RK := rfl
@[simp] theorem writeKey_TR (s : State) (b : Block) : (writeKey s b).TR = s.TR := rfl
@[simp] theorem writeKey_RES (s : State) (b : Block) : (writeKey s b).RES = s.RES := rfl
@[simp] theorem writeKey_STATUS (s : State) (b : Block) : (writeKey s b).STATUS = s.STATUS := rfl
@[simp] theorem writeKey_busy (s : State) (b : Block) : (writeKey s b).busy = s.busy := rfl
@[simp] theorem writeKey_host (s : State) (b : Block) : (writeKey s b).host = s.host := rfl
@[simp] theorem writeKey_lastRead (s : State) (b : Block) : (writeKey s b).lastRead = s.lastRead := rfl

@[simp] theorem writeRK_S (s : State) (W : Bank) : (writeRK s W).S = s.S := rfl
@[simp] theorem writeRK_KEY (s : State) (W : Bank) : (writeRK s W).KEY = s.KEY := rfl
@[simp] theorem writeRK_RK (s : State) (W : Bank) : (writeRK s W).RK = W := rfl
@[simp] theorem writeRK_TR (s : State) (W : Bank) : (writeRK s W).TR = s.TR := rfl
@[simp] theorem writeRK_RES (s : State) (W : Bank) : (writeRK s W).RES = s.RES := rfl
@[simp] theorem writeRK_STATUS (s : State) (W : Bank) : (writeRK s W).STATUS = s.STATUS := rfl
@[simp] theorem writeRK_busy (s : State) (W : Bank) : (writeRK s W).busy = s.busy := rfl
@[simp] theorem writeRK_host (s : State) (W : Bank) : (writeRK s W).host = s.host := rfl
@[simp] theorem writeRK_lastRead (s : State) (W : Bank) : (writeRK s W).lastRead = s.lastRead := rfl

@[simp] theorem writeTR_S (s : State) (T : Bank) : (writeTR s T).S = s.S := rfl
@[simp] theorem writeTR_KEY (s : State) (T : Bank) : (writeTR s T).KEY = s.KEY := rfl
@[simp] theorem writeTR_RK (s : State) (T : Bank) : (writeTR s T).RK = s.RK := rfl
@[simp] theorem writeTR_TR (s : State) (T : Bank) : (writeTR s T).TR = T := rfl
@[simp] theorem writeTR_RES (s : State) (T : Bank) : (writeTR s T).RES = s.RES := rfl
@[simp] theorem writeTR_STATUS (s : State) (T : Bank) : (writeTR s T).STATUS = s.STATUS := rfl
@[simp] theorem writeTR_busy (s : State) (T : Bank) : (writeTR s T).busy = s.busy := rfl
@[simp] theorem writeTR_host (s : State) (T : Bank) : (writeTR s T).host = s.host := rfl
@[simp] theorem writeTR_lastRead (s : State) (T : Bank) : (writeTR s T).lastRead = s.lastRead := rfl

@[simp] theorem writeRes_S (s : State) (v : Byte) : (writeRes s v).S = s.S := rfl
@[simp] theorem writeRes_KEY (s : State) (v : Byte) : (writeRes s v).KEY = s.KEY := rfl
@[simp] theorem writeRes_RK (s : State) (v : Byte) : (writeRes s v).RK = s.RK := rfl
@[simp] theorem writeRes_TR (s : State) (v : Byte) : (writeRes s v).TR = s.TR := rfl
@[simp] theorem writeRes_RES (s : State) (v : Byte) : (writeRes s v).RES = v := rfl
@[simp] theorem writeRes_STATUS (s : State) (v : Byte) : (writeRes s v).STATUS = s.STATUS := rfl
@[simp] theorem writeRes_busy (s : State) (v : Byte) : (writeRes s v).busy = s.busy := rfl
@[simp] theorem writeRes_host (s : State) (v : Byte) : (writeRes s v).host = s.host := rfl
@[simp] theorem writeRes_lastRead (s : State) (v : Byte) : (writeRes s v).lastRead = s.lastRead := rfl

@[simp] theorem writeRnd_S (s : State) (r : BitVec 4) : (writeRnd s r).S = s.S := rfl
@[simp] theorem writeRnd_KEY (s : State) (r : BitVec 4) : (writeRnd s r).KEY = s.KEY := rfl
@[simp] theorem writeRnd_RK (s : State) (r : BitVec 4) : (writeRnd s r).RK = s.RK := rfl
@[simp] theorem writeRnd_TR (s : State) (r : BitVec 4) : (writeRnd s r).TR = s.TR := rfl
@[simp] theorem writeRnd_RES (s : State) (r : BitVec 4) : (writeRnd s r).RES = s.RES := rfl
@[simp] theorem writeRnd_STATUS (s : State) (r : BitVec 4) : (writeRnd s r).STATUS = setRnd s.STATUS r := rfl
@[simp] theorem writeRnd_busy (s : State) (r : BitVec 4) : (writeRnd s r).busy = s.busy := rfl
@[simp] theorem writeRnd_host (s : State) (r : BitVec 4) : (writeRnd s r).host = s.host := rfl
@[simp] theorem writeRnd_lastRead (s : State) (r : BitVec 4) : (writeRnd s r).lastRead = s.lastRead := rfl

@[simp] theorem raiseInvalidInput_S (s : State) : (raiseInvalidInput s).S = s.S := rfl
@[simp] theorem raiseInvalidInput_KEY (s : State) : (raiseInvalidInput s).KEY = s.KEY := rfl
@[simp] theorem raiseInvalidInput_RK (s : State) : (raiseInvalidInput s).RK = s.RK := rfl
@[simp] theorem raiseInvalidInput_TR (s : State) : (raiseInvalidInput s).TR = s.TR := rfl
@[simp] theorem raiseInvalidInput_RES (s : State) : (raiseInvalidInput s).RES = s.RES := rfl
@[simp] theorem raiseInvalidInput_STATUS (s : State) : (raiseInvalidInput s).STATUS = setErr s.STATUS := rfl
@[simp] theorem raiseInvalidInput_busy (s : State) : (raiseInvalidInput s).busy = s.busy := rfl
@[simp] theorem raiseInvalidInput_host (s : State) : (raiseInvalidInput s).host = s.host := rfl
@[simp] theorem raiseInvalidInput_lastRead (s : State) : (raiseInvalidInput s).lastRead = s.lastRead := rfl

@[simp] theorem hostRead_S (s : State) (r : Reg) : (hostRead s r).S = s.S := rfl
@[simp] theorem hostRead_KEY (s : State) (r : Reg) : (hostRead s r).KEY = s.KEY := rfl
@[simp] theorem hostRead_RK (s : State) (r : Reg) : (hostRead s r).RK = s.RK := rfl
@[simp] theorem hostRead_TR (s : State) (r : Reg) : (hostRead s r).TR = s.TR := rfl
@[simp] theorem hostRead_RES (s : State) (r : Reg) : (hostRead s r).RES = s.RES := rfl
@[simp] theorem hostRead_STATUS (s : State) (r : Reg) : (hostRead s r).STATUS = s.STATUS := rfl
@[simp] theorem hostRead_busy (s : State) (r : Reg) : (hostRead s r).busy = s.busy := rfl
@[simp] theorem hostRead_host (s : State) (r : Reg) : (hostRead s r).host = s.host := rfl
@[simp] theorem hostRead_lastRead (s : State) (r : Reg) : (hostRead s r).lastRead = some (readReg s r) := rfl

@[simp] theorem applyReset_S (s : State) : (applyReset s).S = zeroBlock := rfl
@[simp] theorem applyReset_KEY (s : State) : (applyReset s).KEY = zeroBlock := rfl
@[simp] theorem applyReset_RK (s : State) : (applyReset s).RK = zeroBank := rfl
@[simp] theorem applyReset_TR (s : State) : (applyReset s).TR = zeroBank := rfl
@[simp] theorem applyReset_RES (s : State) : (applyReset s).RES = 0x00#8 := rfl
@[simp] theorem applyReset_STATUS (s : State) : (applyReset s).STATUS = 0x00#8 := rfl
@[simp] theorem applyReset_busy (s : State) : (applyReset s).busy = none := rfl
@[simp] theorem applyReset_host (s : State) : (applyReset s).host = s.host := rfl
@[simp] theorem applyReset_lastRead (s : State) : (applyReset s).lastRead = s.lastRead := rfl

@[simp] theorem acceptCommand_S (s : State) (c : Command) : (acceptCommand s c).S = s.S := rfl
@[simp] theorem acceptCommand_KEY (s : State) (c : Command) : (acceptCommand s c).KEY = s.KEY := rfl
@[simp] theorem acceptCommand_RK (s : State) (c : Command) : (acceptCommand s c).RK = s.RK := rfl
@[simp] theorem acceptCommand_TR (s : State) (c : Command) : (acceptCommand s c).TR = s.TR := rfl
@[simp] theorem acceptCommand_RES (s : State) (c : Command) : (acceptCommand s c).RES = s.RES := rfl
@[simp] theorem acceptCommand_STATUS (s : State) (c : Command) : (acceptCommand s c).STATUS = s.STATUS := rfl
@[simp] theorem acceptCommand_busy (s : State) (c : Command) : (acceptCommand s c).busy = some c := rfl
@[simp] theorem acceptCommand_host (s : State) (c : Command) : (acceptCommand s c).host = s.host := rfl
@[simp] theorem acceptCommand_lastRead (s : State) (c : Command) : (acceptCommand s c).lastRead = s.lastRead := rfl

@[simp] theorem becomeIdle_S (s : State) : (becomeIdle s).S = s.S := rfl
@[simp] theorem becomeIdle_KEY (s : State) : (becomeIdle s).KEY = s.KEY := rfl
@[simp] theorem becomeIdle_RK (s : State) : (becomeIdle s).RK = s.RK := rfl
@[simp] theorem becomeIdle_TR (s : State) : (becomeIdle s).TR = s.TR := rfl
@[simp] theorem becomeIdle_RES (s : State) : (becomeIdle s).RES = s.RES := rfl
@[simp] theorem becomeIdle_STATUS (s : State) : (becomeIdle s).STATUS = s.STATUS := rfl
@[simp] theorem becomeIdle_busy (s : State) : (becomeIdle s).busy = none := rfl
@[simp] theorem becomeIdle_host (s : State) : (becomeIdle s).host = s.host := rfl
@[simp] theorem becomeIdle_lastRead (s : State) : (becomeIdle s).lastRead = s.lastRead := rfl

@[simp] theorem setHost_S (s : State) (rest : List HostAction) : (setHost s rest).S = s.S := rfl
@[simp] theorem setHost_KEY (s : State) (rest : List HostAction) : (setHost s rest).KEY = s.KEY := rfl
@[simp] theorem setHost_RK (s : State) (rest : List HostAction) : (setHost s rest).RK = s.RK := rfl
@[simp] theorem setHost_TR (s : State) (rest : List HostAction) : (setHost s rest).TR = s.TR := rfl
@[simp] theorem setHost_RES (s : State) (rest : List HostAction) : (setHost s rest).RES = s.RES := rfl
@[simp] theorem setHost_STATUS (s : State) (rest : List HostAction) : (setHost s rest).STATUS = s.STATUS := rfl
@[simp] theorem setHost_busy (s : State) (rest : List HostAction) : (setHost s rest).busy = s.busy := rfl
@[simp] theorem setHost_host (s : State) (rest : List HostAction) : (setHost s rest).host = rest := rfl
@[simp] theorem setHost_lastRead (s : State) (rest : List HostAction) : (setHost s rest).lastRead = s.lastRead := rfl

@[simp] theorem reset_S : State.reset.S = zeroBlock := rfl
@[simp] theorem reset_KEY : State.reset.KEY = zeroBlock := rfl
@[simp] theorem reset_RK : State.reset.RK = zeroBank := rfl
@[simp] theorem reset_TR : State.reset.TR = zeroBank := rfl
@[simp] theorem reset_RES : State.reset.RES = 0x00#8 := rfl
@[simp] theorem reset_STATUS : State.reset.STATUS = 0x00#8 := rfl
@[simp] theorem reset_busy : State.reset.busy = none := rfl
@[simp] theorem reset_host : State.reset.host = [] := rfl
@[simp] theorem reset_lastRead : State.reset.lastRead = none := rfl

/-- Two states with equal fields are equal. -/
theorem state_ext {s t : State} (hS : s.S = t.S) (hKEY : s.KEY = t.KEY) (hRK : s.RK = t.RK) (hTR : s.TR = t.TR)
    (hRES : s.RES = t.RES) (hSTATUS : s.STATUS = t.STATUS) (hbusy : s.busy = t.busy) (hhost : s.host = t.host)
    (hread : s.lastRead = t.lastRead) : s = t := by
  cases s
  cases t
  simp_all

end Sys2Proof.Machine
end

