-- ==== Sys2Proof/Laws/Step.lean ====
section
/-!
SUPPORT. Everything a step can do, said once: the inversion lemmas of the shared operations of the host interface,
cited instead of unfolding the step.
-/

namespace Sys2Proof.Machine

open Sys2Proof

/-- What performing a sampled command can do: a decoded instruction runs, or the one exception is taken. -/
theorem runCommand_cases (c : Command) (s : State) :
    (∃ i, decode c = .ok i ∧ runCommand c s = exec i s) ∨
      (∃ e, decode c = .error e ∧ runCommand c s = .next (raiseInvalidInput s)) := by
  unfold runCommand
  cases h : decode c with
  | ok i => exact .inl ⟨i, rfl, rfl⟩
  | error e => exact .inr ⟨e, rfl, rfl⟩

/-- What a step of an idle block that answers `t` was: waiting with nothing to do, or one action of the host. -/
theorem idleStep_cases {s t : State} (h : idleStep s = .next t) :
    (s.host = [] ∧ t = s) ∨
      ∃ rest, (∃ c, s.host = .issue c :: rest ∧ t = acceptCommand (setHost s rest) c) ∨
        (∃ r, s.host = .read r :: rest ∧ t = hostRead (setHost s rest) r) ∨
        (s.host = .reset :: rest ∧ t = applyReset (setHost s rest)) ∨
        (s.host = .wait :: rest ∧ t = setHost s rest) := by
  unfold idleStep at h
  split at h <;> cases h <;> simp_all

/-- What a step of a block busy with `c` that answers `t` was: the command completed, or a reset abandoned it. -/
theorem busyStep_cases {c : Command} {s t : State} (h : busyStep c s = .next t) :
    (s.host = [] ∧ runCommand c (becomeIdle s) = .next t) ∨
      ∃ rest, (s.host = .wait :: rest ∧ runCommand c (becomeIdle (setHost s rest)) = .next t) ∨
        (s.host = .reset :: rest ∧ t = applyReset (setHost s rest)) := by
  unfold busyStep at h
  split at h
  · exact .inl ⟨by assumption, h⟩
  · exact .inr ⟨_, .inl ⟨by assumption, h⟩⟩
  · cases h
    exact .inr ⟨_, .inr ⟨by assumption, rfl⟩⟩
  · cases h
  · cases h

/-- A step is a step of an idle block or of a busy one. -/
theorem step_cases {s t : State} (h : step s = .next t) :
    (s.busy = none ∧ idleStep s = .next t) ∨ ∃ c, s.busy = some c ∧ busyStep c s = .next t := by
  unfold step hostStep at h
  split at h
  · exact .inl ⟨by assumption, h⟩
  · exact .inr ⟨_, by assumption, h⟩

/-- What `ADDROUNDKEY` can do: the exception for an index 11..15, the key addition for an index that names a round
key (R130). -/
theorem execAddroundkey_cases (k : BitVec 4) (s : State) :
    (10 < k.toNat ∧ execAddroundkey k s = .next (raiseInvalidInput s)) ∨
      ∃ j : Fin 11, k.toNat = j.val ∧ execAddroundkey k s = .next (writeS s (addRoundKey s.S (bankAt s.RK j))) := by
  unfold execAddroundkey
  by_cases h : k.toNat ≤ 10
  · rw [roundKeyIndex_of_le h]
    exact .inr ⟨_, rfl, rfl⟩
  · rw [roundKeyIndex_of_gt (by omega)]
    exact .inl ⟨by omega, rfl⟩

end Sys2Proof.Machine
end

