-- ==== Sys2Proof/Laws/Views.lean ====
section
/-!
SUPPORT. The small lemmas of the views: reading what was built, and that a block, a column or a bank is determined by
what is read from it.
-/

namespace Sys2Proof.Machine

open Sys2Proof

@[simp] theorem byteAt_blockOf (f : Fin 16 → Byte) (i : Fin 16) : byteAt (blockOf f) i = f i := by
  fin_cases i <;> rfl

@[simp] theorem colByte_columnOf (f : Fin 4 → Byte) (r : Fin 4) : colByte (columnOf f) r = f r := by
  fin_cases r <;> rfl

@[simp] theorem bankAt_bankOf (f : Fin 11 → Block) (k : Fin 11) : bankAt (bankOf f) k = f k := by
  fin_cases k <;> rfl

theorem block_ext {A B : Block} (h : ∀ i, byteAt A i = byteAt B i) : A = B :=
  Vector.ext fun i hi => h ⟨i, hi⟩

theorem column_ext {A B : Column} (h : ∀ r, colByte A r = colByte B r) : A = B :=
  Vector.ext fun r hr => h ⟨r, hr⟩

theorem bank_ext {A B : Bank} (h : ∀ k, bankAt A k = bankAt B k) : A = B :=
  Vector.ext fun k hk => h ⟨k, hk⟩

@[simp] theorem rowOfIndex_indexOfCell (r c : Fin 4) : rowOfIndex (indexOfCell r c) = r := by
  ext
  simp [rowOfIndex, indexOfCell]

@[simp] theorem colOfIndex_indexOfCell (r c : Fin 4) : colOfIndex (indexOfCell r c) = c := by
  ext
  simp [colOfIndex, indexOfCell]
  omega

@[simp] theorem indexOfCell_rowOfIndex_colOfIndex (i : Fin 16) : indexOfCell (rowOfIndex i) (colOfIndex i) = i := by
  ext
  simp [rowOfIndex, colOfIndex, indexOfCell]
  omega

@[simp] theorem byteAt_matrixOf (f : Fin 4 → Fin 4 → Byte) (i : Fin 16) :
    byteAt (matrixOf f) i = f (rowOfIndex i) (colOfIndex i) := by
  simp [matrixOf]

@[simp] theorem cell_matrixOf (f : Fin 4 → Fin 4 → Byte) (r c : Fin 4) : cell (matrixOf f) r c = f r c := by
  simp [cell]

/-- The cell in the row and the column of a byte is that byte (R22). -/
@[simp] theorem cell_rowOfIndex_colOfIndex (M : Block) (i : Fin 16) : cell M (rowOfIndex i) (colOfIndex i) = byteAt M i := by
  simp [cell]

/-- A block is determined by its cells. -/
theorem block_ext_cells {A B : Block} (h : ∀ r c, cell A r c = cell B r c) : A = B :=
  block_ext fun i => by simpa using h (rowOfIndex i) (colOfIndex i)

@[simp] theorem colByte_column (M : Block) (c r : Fin 4) : colByte (column M c) r = cell M r c := by
  simp [column]

@[simp] theorem colByte_row (M : Block) (r c : Fin 4) : colByte (row M r) c = cell M r c := by
  simp [row]

@[simp] theorem cell_blockOfColumns (f : Fin 4 → Column) (r c : Fin 4) : cell (blockOfColumns f) r c = colByte (f c) r := by
  simp [blockOfColumns]

@[simp] theorem column_blockOfColumns (f : Fin 4 → Column) (c : Fin 4) : column (blockOfColumns f) c = f c :=
  column_ext fun r => by simp

@[simp] theorem colByte_xorColumn (A B : Column) (r : Fin 4) :
    colByte (xorColumn A B) r = colByte A r ^^^ colByte B r := by
  simp [xorColumn]

@[simp] theorem byteAt_zeroBlock (i : Fin 16) : byteAt zeroBlock i = 0x00#8 := by
  simp [zeroBlock]

@[simp] theorem cell_zeroBlock (r c : Fin 4) : cell zeroBlock r c = 0x00#8 := by
  simp [cell]

@[simp] theorem bankAt_zeroBank (k : Fin 11) : bankAt zeroBank k = zeroBlock := by
  simp [zeroBank]

@[simp] theorem byteAt_blockOfFlat (v : BitVec 128) (i : Fin 16) :
    byteAt (blockOfFlat v) i = v.extractLsb' (120 - 8 * i.val) 8 := by
  simp [blockOfFlat]

/-- A bit of one byte's place in the flat view, read at the place of byte `i`: the byte's own bit, or 0 (R51). -/
theorem getLsbD_flatByte (B : Block) (k i : Fin 16) {j : Nat} (hj : j < 8) :
    (flatByte B k).getLsbD (120 - 8 * i.val + j) = (decide (k = i) && (byteAt B k).getLsbD j) := by
  unfold flatByte
  simp only [BitVec.getLsbD_shiftLeft, BitVec.getLsbD_setWidth]
  by_cases h : k = i
  · subst h
    have : 120 - 8 * k.val + j < 128 := by omega
    simp [this, hj]
    omega
  · have hne : k.val ≠ i.val := fun e => h (Fin.ext e)
    simp only [h, decide_false, Bool.false_and, Bool.and_eq_false_iff]
    by_cases hlt : 120 - 8 * i.val + j < 120 - 8 * k.val
    · simp [hlt]
    · refine .inr (.inr (BitVec.getLsbD_of_ge _ _ ?_))
      omega

/-- A bit of one entry's place in the flat view, read at the place of entry `i`: the entry's own bit, or 0 (R51). -/
theorem getLsbD_flatEntry (W : Bank) (k i : Fin 11) {j : Nat} (hj : j < 128) :
    (flatEntry W k).getLsbD (1280 - 128 * i.val + j) = (decide (k = i) && (flatOfBlock (bankAt W k)).getLsbD j) := by
  unfold flatEntry
  simp only [BitVec.getLsbD_shiftLeft, BitVec.getLsbD_setWidth]
  by_cases h : k = i
  · subst h
    have : 1280 - 128 * k.val + j < 1408 := by omega
    simp [this]
    omega
  · have hne : k.val ≠ i.val := fun e => h (Fin.ext e)
    simp only [h, decide_false, Bool.false_and, Bool.and_eq_false_iff]
    by_cases hlt : 1280 - 128 * i.val + j < 1280 - 128 * k.val
    · simp [hlt]
    · refine .inr (.inr (BitVec.getLsbD_of_ge _ _ ?_))
      omega

end Sys2Proof.Machine
end

