-- ==== Sys2Proof/Laws/Transforms.lean ====
section
/-!
SUPPORT. One lemma per function of the transforms, the key schedule and the driver: what each output cell or entry is.
-/

namespace Sys2Proof.Machine

open Sys2Proof

@[simp] theorem cell_subBytes (M : Block) (r c : Fin 4) : cell (subBytes M) r c = sbox (cell M r c) := by
  simp [subBytes]

@[simp] theorem cell_shiftRows (M : Block) (r c : Fin 4) : cell (shiftRows M) r c = cell M r (c + r) := by
  simp [shiftRows]

@[simp] theorem column_mixColumns (M : Block) (c : Fin 4) : column (mixColumns M) c = mixColumn (column M c) := by
  simp [mixColumns]

theorem cell_mixColumns (M : Block) (r c : Fin 4) : cell (mixColumns M) r c = colByte (mixColumn (column M c)) r := by
  simp [mixColumns]

@[simp] theorem cell_addRoundKey (M K : Block) (r c : Fin 4) : cell (addRoundKey M K) r c = cell M r c ^^^ cell K r c := by
  simp [addRoundKey]

@[simp] theorem byteAt_addRoundKey (M K : Block) (i : Fin 16) :
    byteAt (addRoundKey M K) i = byteAt M i ^^^ byteAt K i := by
  simp [addRoundKey]

@[simp] theorem byteAt_subBytes (M : Block) (i : Fin 16) : byteAt (subBytes M) i = sbox (byteAt M i) := by
  simp [subBytes]

@[simp] theorem colByte_rotateUp (w : Column) (r : Fin 4) : colByte (rotateUp w) r = colByte w (r + 1) := by
  simp [rotateUp]

@[simp] theorem colByte_subWord (w : Column) (r : Fin 4) : colByte (subWord w) r = sbox (colByte w r) := by
  simp [subWord]

@[simp] theorem colByte_addRcon (w : Column) (k : Byte) (r : Fin 4) :
    colByte (addRcon w k) r = if r = 0 then colByte w r ^^^ k else colByte w r := by
  simp [addRcon]

theorem column_nextRoundKey_zero (P : Block) (k : Byte) :
    column (nextRoundKey P k) 0 = xorColumn (column P 0) (scheduleWord P k) := by
  simp [nextRoundKey]

theorem column_nextRoundKey_one (P : Block) (k : Byte) :
    column (nextRoundKey P k) 1 = xorColumn (column P 1) (column (nextRoundKey P k) 0) := by
  simp [nextRoundKey]

theorem column_nextRoundKey_two (P : Block) (k : Byte) :
    column (nextRoundKey P k) 2 = xorColumn (column P 2) (column (nextRoundKey P k) 1) := by
  simp [nextRoundKey]

theorem column_nextRoundKey_three (P : Block) (k : Byte) :
    column (nextRoundKey P k) 3 = xorColumn (column P 3) (column (nextRoundKey P k) 2) := by
  simp [nextRoundKey]

@[simp] theorem bankAt_keyExpand (K : Block) (k : Fin 11) : bankAt (keyExpand K) k = roundKey K k.val k.isLt := by
  simp [keyExpand]

@[simp] theorem bankAt_traceOf (W : Bank) (P : Block) (r : Fin 11) :
    bankAt (traceOf W P) r = stateAfterRound W P r.val r.isLt := by
  simp [traceOf]

end Sys2Proof.Machine
end

