-- ==== Sys2Proof/Tests/Slice0.lean ====
section
/-!
SUPPORT. The tests. Every expected result comes from the spec: 95_test_vectors.md, or the worked examples of the rules
named. The witnesses at the end show, for each statement with hypotheses, a state and operands that meet them.
-/

namespace Sys2Proof.Tests

open Sys2Proof Sys2Proof.Machine Sys2Proof.Safety

/-- A block written as its 32 hexadecimal digits. -/
abbrev blk (v : BitVec 128) : Block := blockOfFlat v

/-- The next state of an outcome, if it is one. -/
def after (o : Host.Outcome State Fault Refusal) : Option State :=
  match o with
  | .next s => some s
  | .fault _ => none
  | .refused _ => none

/-- The reset state with these values of `S` and `KEY`. -/
def start (S KEY : BitVec 128) : State := { State.reset with S := blk S, KEY := blk KEY }

/-- The reset state with these host actions to come. -/
def hosted (l : List HostAction) : State := { State.reset with host := l }

/-- The reset state busy with a command, with these host actions to come. -/
def busyWith (c : Command) (l : List HostAction) : State := { State.reset with busy := some c, host := l }

/-! ## Well-formedness and decoding -/

theorem test_wf_refuses_index_11 : (Instr.addroundkey 11#4).wf = false := by decide

theorem test_wf_accepts_index_10 : (Instr.addroundkey 10#4).wf = true := by decide

/-- R71, R74: op 0000, k 0000, a 01010111, b 10000011. -/
theorem test_decode_gfmul : decode ⟨0b000000000101011110000011#24, 0#128⟩ = .ok (.gfmul 0x57#8 0x83#8) := by decide

/-- op 0001, k 1111 ignored, a 01010011, b 10101011 ignored (95_test_vectors.md section 2.2). -/
theorem test_decode_sbox : decode ⟨0b000111110101001110101011#24, 0#128⟩ = .ok (.sbox 0x53#8) := by decide

theorem test_decode_subbytes : decode ⟨0b001011111111111111111111#24, 0#128⟩ = .ok .subbytes := by decide

theorem test_decode_shiftrows : decode ⟨0b001100000000000000000000#24, 0#128⟩ = .ok .shiftrows := by decide

theorem test_decode_mixcolumns : decode ⟨0b010000000000000000000000#24, 0#128⟩ = .ok .mixcolumns := by decide

/-- op 0101, k 1010, the rest ignored (95_test_vectors.md section 2.9: 0x5AFFFF). -/
theorem test_decode_addroundkey : decode ⟨0b010110101111111111111111#24, 0#128⟩ = .ok (.addroundkey 10#4) := by decide

theorem test_decode_keyexpand : decode ⟨0b011000000000000000000000#24, 0#128⟩ = .ok .keyexpand := by decide

theorem test_decode_encrypt : decode ⟨0b011100000000000000000000#24, 0#128⟩ = .ok .encrypt := by decide

/-- R170's worked example. -/
theorem test_decode_lds : decode ⟨0b100000000000000000000000#24, 0x00112233445566778899aabbccddeeff#128⟩ =
    .ok (.lds #v[0x00, 0x11, 0x22, 0x33, 0x44, 0x55, 0x66, 0x77, 0x88, 0x99, 0xaa, 0xbb, 0xcc, 0xdd, 0xee, 0xff]) := by
  decide +kernel

/-- R171's worked example. -/
theorem test_decode_ldk : decode ⟨0b100100000000000000000000#24, 0x000102030405060708090a0b0c0d0e0f#128⟩ =
    .ok (.ldk #v[0, 1, 2, 3, 4, 5, 6, 7, 8, 9, 10, 11, 12, 13, 14, 15]) := by
  decide +kernel

/-- 0x5B0000, the nearest illegal neighbour of `ADDROUNDKEY 10` (section 2.9). -/
theorem test_decode_index_11 :
    decode ⟨0b010110110000000000000000#24, 0#128⟩ = .error (.roundKeyIndexOutOfRange 11#4) := by decide

/-- 0xA00000, the lowest reserved operation code (section 2.9). -/
theorem test_decode_reserved : decode ⟨0b101000000000000000000000#24, 0#128⟩ = .error (.reservedOpcode 10#4) := by decide

/-- R80's worked encodings. -/
theorem test_encode_worked : encode (.gfmul 0x57#8 0x83#8) = ⟨0x005783#24, 0#128⟩ ∧ encode (.sbox 0x53#8) = ⟨0x105300#24, 0#128⟩ ∧
    encode (.addroundkey 10#4) = ⟨0x5A0000#24, 0#128⟩ := by decide

theorem test_encode_lds : encode (.lds (blk 0x00112233445566778899aabbccddeeff#128)) =
    ⟨0x800000#24, 0x00112233445566778899aabbccddeeff#128⟩ := by decide +kernel

theorem test_decode_table_word : decodeTableWord 24 0x005783 = some (.gfmul 0x57#8 0x83#8) ∧
    decodeTableWord 24 0x5B0000 = none ∧ decodeTableWord 24 0x800000 = some (.lds zeroBlock) := by decide +kernel

/-! ## The commands -/

theorem test_gfmul : (after (exec (.gfmul 0x57#8 0x83#8) State.reset)).map State.RES = some 0xC1#8 := by decide +kernel

/-- The shifted-out bit (section 2.1). -/
theorem test_gfmul_reduces : (after (exec (.gfmul 0x80#8 0x02#8) State.reset)).map State.RES = some 0x1B#8 := by
  decide +kernel

/-- The first iterations of the trace of section 2.1: after iteration 2, `p` = f9, `x` = 47, `y` = 20. -/
theorem test_gfmul_trace : gfmulLoop 2 0x57#8 0xAE#8 0x41#8 = gfmulLoop 1 0xF9#8 0x47#8 0x20#8 := by decide +kernel

theorem test_sbox : (after (exec (.sbox 0x53#8) State.reset)).map State.RES = some 0xED#8 := by decide +kernel

theorem test_sbox_zero : (after (exec (.sbox 0x00#8) State.reset)).map State.RES = some 0x63#8 := by decide +kernel

theorem test_affine : affine 0xCA#8 = 0xED#8 ∧ affine 0x01#8 = 0x7C#8 ∧ affine 0xFF#8 = 0x9C#8 := by decide +kernel

/-- Section 2.6, round 2 of the known-answer run: `sub` of `TR[1]`. -/
theorem test_subbytes : (after (exec .subbytes (start 0x01000000010000000100000001000000#128 0#128))).map State.S =
    some (blk 0x7c6363637c6363637c6363637c636363#128) := by decide +kernel

/-- Section 2.3. -/
theorem test_shiftrows : (after (exec .shiftrows (start 0x000102030405060708090a0b0c0d0e0f#128 0#128))).map State.S =
    some (blk 0x00050a0f04090e03080d02070c01060b#128) := by decide +kernel

/-- R127's worked example. -/
theorem test_mixcolumns : (after (exec .mixcolumns (start 0xdb135345f20a225c01010101c6c6c6c6#128 0#128))).map State.S =
    some (blk 0x8e4da1bc9fdc589d01010101c6c6c6c6#128) := by decide +kernel

/-- Section 2.8: `RK[10]` is the entry `ADDROUNDKEY 10` uses. -/
theorem test_addroundkey : (after (exec (.addroundkey 10#4)
    { start 0x7ffe0e9551a566350e347c472929eccb#128 0#128 with
      RK := bankOf fun k => if k = 10 then blk 0xb4ef5bcb3e92e21123e951cf6f8f188e#128 else zeroBlock })).map State.S =
    some (blk 0xcb11555e6f3784242ddd2d8846a6f445#128) := by decide +kernel

theorem test_addroundkey_illegal : (after (exec (.addroundkey 11#4) (start 0x57#128 0#128))).map
    (fun t => (t.S, t.STATUS)) = some (blk 0x57#128, 0x01#8) := by decide +kernel

/-- Round 1 by hand in R144, and the zero key of section 2.5. -/
theorem test_round_key_one : nextRoundKey (blk 0x2b7e151628aed2a6abf7158809cf4f3c#128) 0x01#8 =
    blk 0xa0fafe1788542cb123a339392a6c7605#128 := by decide +kernel

theorem test_keyexpand : (after (exec .keyexpand State.reset)).map
    (fun t => (bankAt t.RK 1, bankAt t.RK 2)) =
    some (blk 0x62636363626363636263636362636363#128, blk 0x9b9898c9f9fbfbaa9b9898c9f9fbfbaa#128) := by decide +kernel

/-- Section 2.6: `TR[1]` of the known-answer run. -/
theorem test_encrypt_trace : (after (exec .encrypt State.reset)).map (fun t => bankAt t.TR 1) =
    some (blk 0x01000000010000000100000001000000#128) := by decide +kernel

/-- `STATUS` = 0xA0 after `ENCRYPT` (section 2.6). -/
theorem test_encrypt_status : (after (exec .encrypt State.reset)).map (fun t => t.STATUS) = some 0xA0#8 := by
  decide +kernel

theorem test_lds : (after (exec (.lds (blk 0x00112233445566778899aabbccddeeff#128)) State.reset)).map
    (fun t => (cell t.S 1 0, cell t.S 0 1, cell t.S 3 3)) = some (0x11#8, 0x44#8, 0xFF#8) := by decide +kernel

theorem test_ldk : (after (exec (.ldk (blk 0x000102030405060708090a0b0c0d0e0f#128)) State.reset)).map
    (fun t => (row t.KEY 0, column t.KEY 3)) = some (#v[0x00, 0x04, 0x08, 0x0c], #v[0x0c, 0x0d, 0x0e, 0x0f]) := by
  decide +kernel

/-! ## The interface -/

/-- Program 3, command 3: a reserved operation code sets `ERR`. -/
theorem test_step_illegal : (after (step (busyWith ⟨0xA00000#24, 0#128⟩ [.wait]))).map (fun t => (t.STATUS, t.busy)) =
    some (0x01#8, none) := by decide +kernel

theorem test_step_accepts : (after (step (hosted [.issue ⟨0x005783#24, 0#128⟩, .wait]))).map (fun t => (t.RES, t.busy)) =
    some (0x00#8, some ⟨0x005783#24, 0#128⟩) := by decide +kernel

theorem test_step_completes : (after (step (busyWith ⟨0x005783#24, 0#128⟩ [.wait]))).map (fun t => (t.RES, t.busy, t.host)) =
    some (0xC1#8, none, []) := by decide +kernel

/-- R201: a reset while busy abandons the command. -/
theorem test_step_reset_abandons : (after (step { busyWith ⟨0x005783#24, 0#128⟩ [.reset] with STATUS := 0xA1#8 })).map
    (fun t => (t.RES, t.STATUS, t.busy)) = some (0x00#8, 0x00#8, none) := by decide +kernel

theorem test_step_refuses_busy_issue :
    step (busyWith ⟨0x005783#24, 0#128⟩ [.issue ⟨0x600000#24, 0#128⟩]) = .refused .hostActedWhileBusy := rfl

/-- R27: reserved bits read as 0, whatever is stored. -/
theorem test_read_status : (after (step { hosted [.read .STATUS] with STATUS := 0xAF#8 })).map (fun t => t.lastRead) =
    some (some (.byte 0xA1#8)) := by decide +kernel

theorem test_with_fetch_word : (after (step (State.reset.withFetchWord 24 0x105300))).map (fun t => (t.RES, t.host)) =
    some (0xED#8, []) := by decide +kernel

/-- R51: the flat view of a bank has entry 0 in its most significant 128 bits. -/
theorem test_flat_bank : rkOut { State.reset with RK := bankOf fun k => if k = 10 then blk 0x0f#128 else zeroBlock } = 0x0f#1408 := by
  decide +kernel

theorem test_instances : ((stepInstance [hosted [.wait], hosted [.wait]] 1).map fun l => l.map fun t => t.host) =
    some [[.wait], []] := by decide +kernel

theorem test_assemble_round : assembleLine "ROUND 9" =
    some [⟨0x200000#24, 0#128⟩, ⟨0x300000#24, 0#128⟩, ⟨0x400000#24, 0#128⟩, ⟨0x590000#24, 0#128⟩] := by decide +kernel

theorem test_assemble_refuses_index_11 : assembleLine "ADDROUNDKEY 11" = none := by decide +kernel

/-- `RED` is `POLY` with the leading term dropped (R4). -/
theorem test_red_is_poly_without_leading_term : Config.red = Config.poly.setWidth 8 := by decide

/-! ## Witnesses: the hypotheses of the statements can be met -/

theorem test_witness_wf_index_bounds : (Instr.addroundkey 0#4).wf = true ∧ (Instr.addroundkey 10#4).wf = true := by decide

theorem test_witness_same_canonical : canonicalOf ⟨0x0F5783#24, 5#128⟩ = canonicalOf ⟨0x005783#24, 0#128⟩ ∧
    canonicalOf ⟨0x5AFFFF#24, 5#128⟩ = canonicalOf ⟨0x5A0000#24, 0#128⟩ ∧
    canonicalOf ⟨0x1F53AB#24, 5#128⟩ = canonicalOf ⟨0x105300#24, 0#128⟩ ∧
    canonicalOf ⟨0x2FFFFF#24, 5#128⟩ = canonicalOf ⟨0x200000#24, 0#128⟩ ∧
    canonicalOf ⟨0x8FFFFF#24, 5#128⟩ = canonicalOf ⟨0x800000#24, 5#128⟩ ∧
    canonicalOf ⟨0x9FFFFF#24, 5#128⟩ = canonicalOf ⟨0x900000#24, 5#128⟩ := by decide

theorem test_witness_decodes : decode ⟨0x0F5783#24, 5#128⟩ = .ok (.gfmul 0x57#8 0x83#8) := by decide

theorem test_witness_illegal_bounds : IllegalWord 0xA00000#24 ∧ IllegalWord 0xFFFFFF#24 ∧ IllegalWord 0x5B0000#24 ∧
    IllegalWord 0x5FFFFF#24 := by unfold IllegalWord; decide

theorem test_witness_legal_bounds : ¬ IllegalWord 0x000000#24 ∧ ¬ IllegalWord 0x5AFFFF#24 ∧ ¬ IllegalWord 0x600000#24 ∧
    ¬ IllegalWord 0x9FFFFF#24 := by unfold IllegalWord; decide

/-- ErrStaysUntilReset: a state with `ERR` = 1 whose next action is no reset, with its next state; and an instruction
that answers a next state. -/
theorem test_witness_err_stays : ∃ s t : State, step s = .next t ∧ errOf s.STATUS = true ∧ s.host.head? ≠ some .reset :=
  ⟨{ State.reset with STATUS := 0x01#8 }, _, rfl, by decide, by decide⟩

theorem test_witness_exec_answers : ∃ t, exec (.gfmul 0x57#8 0x83#8) State.reset = .next t := ⟨_, rfl⟩

theorem test_witness_nonzero_byte : (0x01#8 : Byte) ≠ 0x00#8 ∧ gfmul 0x01#8 0x01#8 = 0x01#8 := by decide

theorem test_witness_index_bounds : (0#4 : BitVec 4).toNat ≤ 10 ∧ (10#4 : BitVec 4).toNat ≤ 10 ∧
    11 ≤ (11#4 : BitVec 4).toNat ∧ 11 ≤ (15#4 : BitVec 4).toNat := by decide

theorem test_witness_known_answer : State.reset.S = zeroBlock ∧ State.reset.KEY = zeroBlock := ⟨rfl, rfl⟩

theorem test_witness_final_round : bankAt (bankOf fun _ => blk 0xb4ef5bcb3e92e21123e951cf6f8f188e#128) 10 =
    blk 0xb4ef5bcb3e92e21123e951cf6f8f188e#128 := rfl

theorem test_witness_load_load_encrypt : ∃ s : State, s.busy = none ∧
    s.host = [.issue ⟨0x8#4 ++ 0#4 ++ 0#8 ++ 0#8, 1#128⟩, .wait, .issue ⟨0x9#4 ++ 0#4 ++ 0#8 ++ 0#8, 2#128⟩, .wait,
      .issue ⟨0x7#4 ++ 0#4 ++ 0#8 ++ 0#8, 0#128⟩, .wait] :=
  ⟨hosted _, rfl, rfl⟩

theorem test_witness_reset_idle_and_busy : (hosted [.reset]).host = .reset :: [] ∧ (hosted [.reset]).busy = none ∧
    (busyWith ⟨0x700000#24, 0#128⟩ [.reset]).host = .reset :: [] := ⟨rfl, rfl, rfl⟩

theorem test_witness_idle_read : (hosted [.read (.RK 10)]).busy = none ∧ (hosted [.read (.RK 10)]).host = .read (.RK 10) :: [] :=
  ⟨rfl, rfl⟩

theorem test_witness_idle_issue_wait_nothing :
    ((hosted [.issue ⟨0x600000#24, 0#128⟩]).busy = none ∧
      (hosted [.issue ⟨0x600000#24, 0#128⟩]).host = .issue ⟨0x600000#24, 0#128⟩ :: []) ∧
    ((hosted [.wait]).busy = none ∧ (hosted [.wait]).host = .wait :: []) ∧
    (State.reset.busy = none ∧ State.reset.host = []) := ⟨⟨rfl, rfl⟩, ⟨rfl, rfl⟩, rfl, rfl⟩

/-- StepRunsDecodedInstruction: both ways a command may complete, and a rejected one. -/
theorem test_witness_step_runs :
    decode ⟨0x600000#24, 0#128⟩ = .ok .keyexpand ∧ LetsComplete (busyWith ⟨0x600000#24, 0#128⟩ [.wait]) ∧
    LetsComplete (busyWith ⟨0x600000#24, 0#128⟩ []) ∧ rejected ⟨0x5B0000#24, 0#128⟩ = true ∧
    LetsComplete (busyWith ⟨0x5B0000#24, 0#128⟩ [.wait]) ∧ decodeTableWord 24 0x600000 = some .keyexpand :=
  ⟨by decide, .inr rfl, .inl rfl, by decide, .inr rfl, by decide⟩

/-- CarefulHostRunEnds and RunWentWrongExactlyByIllegalCommand: a careful host without a reset whose run has ended. -/
theorem test_witness_careful_run : ∃ s t : State, careful s.busy.isSome s.host = true ∧ HostAction.reset ∉ s.host ∧
    run 2 s = .next t ∧ runEnded t = true :=
  ⟨hosted [.issue ⟨0x5B0000#24, 0#128⟩, .wait], _, by decide, by decide, rfl, rfl⟩

/-- AccessMatrixFrame, AccessMatrixReads: a part that is not written, and two different states that agree on what
`ADDROUNDKEY 10` reads. -/
theorem test_witness_access_matrix :
    writesPart (.addroundkey 10#4) .KEY = false ∧ writesPart (.addroundkey 10#4) .S = true ∧
    (∀ p, readsPart (.addroundkey 10#4) p = true → SameAt State.reset { State.reset with KEY := blk 1#128, RES := 0x01#8 } p) ∧
    (∃ t, exec (.addroundkey 10#4) State.reset = .next t) ∧
    (∃ t, exec (.addroundkey 10#4) { State.reset with KEY := blk 1#128, RES := 0x01#8 } = .next t) := by
  refine ⟨by decide, by decide, ?_, ⟨_, rfl⟩, ⟨_, rfl⟩⟩
  intro p hp
  cases p <;> first | rfl | (exact absurd hp (by decide))

/-- OnlyTheirCommandsWriteRegisters: steps without a reset that change `KEY`, `RK` and `TR` and `RND`, and `RES`. -/
theorem test_witness_registers_change :
    (∃ s t : State, step s = .next t ∧ s.host.head? ≠ some .reset ∧ t.KEY ≠ s.KEY) ∧
    (∃ s t : State, step s = .next t ∧ s.host.head? ≠ some .reset ∧ t.RK ≠ s.RK) ∧
    (∃ s t : State, step s = .next t ∧ s.host.head? ≠ some .reset ∧ t.TR ≠ s.TR ∧ rndOf t.STATUS ≠ rndOf s.STATUS) ∧
    (∃ s t : State, step s = .next t ∧ s.host.head? ≠ some .reset ∧ t.RES ≠ s.RES) := by
  refine ⟨⟨busyWith ⟨0x900000#24, 1#128⟩ [.wait], _, rfl, by decide, by decide +kernel⟩,
    ⟨busyWith ⟨0x600000#24, 0#128⟩ [.wait], _, rfl, by decide, ?_⟩,
    ⟨busyWith ⟨0x700000#24, 0#128⟩ [.wait], _, rfl, by decide, ?_, by decide +kernel⟩,
    ⟨busyWith ⟨0x005783#24, 0#128⟩ [.wait], _, rfl, by decide, by decide +kernel⟩⟩
  · exact fun h => absurd (congrArg (fun W => byteAt (bankAt W 1) 0) h) (by decide +kernel)
  · exact fun h => absurd (congrArg (fun W => byteAt (bankAt W 1) 0) h) (by decide +kernel)

/-- IdempotentCommands. -/
theorem test_witness_idempotent : (∃ t, exec (.gfmul 1#8 2#8) State.reset = .next t) ∧
    (∃ t, exec (.sbox 1#8) State.reset = .next t) ∧ (∃ t, exec (.lds zeroBlock) State.reset = .next t) ∧
    (∃ t, exec (.ldk zeroBlock) State.reset = .next t) ∧ ∃ t, exec .keyexpand State.reset = .next t :=
  ⟨⟨_, rfl⟩, ⟨_, rfl⟩, ⟨_, rfl⟩, ⟨_, rfl⟩, _, rfl⟩

/-- StepKeepsInvariant: a state that meets the invariant and takes a step. -/
theorem test_witness_invariant : ∃ s t : State, MachineInvariant s ∧ step s = .next t :=
  ⟨busyWith ⟨0x700000#24, 0#128⟩ [.wait], _,
    ⟨by decide, .inl (by decide), fun _ => ⟨rfl, .inl rfl⟩, fun h => absurd h (by decide)⟩, rfl⟩

theorem test_witness_instance_steps : ∃ l', stepInstance [hosted [.wait], State.reset] 0 = some l' := ⟨_, rfl⟩

theorem test_witness_round_bounds : (1 ≤ (1#4 : BitVec 4).toNat ∧ (1#4 : BitVec 4).toNat ≤ 9) ∧
    (1 ≤ (9#4 : BitVec 4).toNat ∧ (9#4 : BitVec 4).toNat ≤ 9) := by decide

end Sys2Proof.Tests
end

section
/-!
PROOFS of the family 10_state.md, first part: what each command does, said once, and the access matrix (10_state.md
R34).
-/

namespace Sys2Proof.Proofs

open Sys2Proof Sys2Proof.Machine Sys2Proof.Safety

/-! ### One equation per command -/

theorem exec_gfmul (a b : Byte) (s : State) : exec (.gfmul a b) s = .next (writeRes s (gfmul a b)) := rfl

theorem exec_sbox (a : Byte) (s : State) : exec (.sbox a) s = .next (writeRes s (sbox a)) := rfl

theorem exec_subbytes (s : State) : exec .subbytes s = .next (writeS s (subBytes s.S)) := rfl

theorem exec_shiftrows (s : State) : exec .shiftrows s = .next (writeS s (shiftRows s.S)) := rfl

theorem exec_mixcolumns (s : State) : exec .mixcolumns s = .next (writeS s (mixColumns s.S)) := rfl

theorem exec_addroundkey_of_le {k : BitVec 4} (hk : k.toNat ≤ 10) (s : State) :
    exec (.addroundkey k) s = .next (writeS s (addRoundKey s.S (bankAt s.RK ⟨k.toNat, Nat.lt_succ_of_le hk⟩))) := by
  simp only [exec, execAddroundkey, roundKeyIndex_of_le hk]

theorem exec_addroundkey_of_gt {k : BitVec 4} (hk : 10 < k.toNat) (s : State) :
    exec (.addroundkey k) s = .next (raiseInvalidInput s) := by
  simp only [exec, execAddroundkey, roundKeyIndex_of_gt hk]

theorem exec_keyexpand (s : State) : exec .keyexpand s = .next (writeRK s (keyExpand s.KEY)) := rfl

/-- The state after `ENCRYPT`: `RK`, `TR`, `S` and `RND` written together (R154). -/
def afterEncrypt (s : State) : State :=
  writeRnd (writeS (writeTR (writeRK s (keyExpand s.KEY)) (traceOf (keyExpand s.KEY) s.S)) (ciphertext s.S s.KEY)) 0xA#4

theorem exec_encrypt (s : State) : exec .encrypt s = .next (afterEncrypt s) := rfl

theorem exec_lds (d : Block) (s : State) : exec (.lds d) s = .next (writeS s d) := rfl

theorem exec_ldk (d : Block) (s : State) : exec (.ldk d) s = .next (writeKey s d) := rfl

@[simp] theorem afterEncrypt_S (s : State) : (afterEncrypt s).S = ciphertext s.S s.KEY := rfl
@[simp] theorem afterEncrypt_KEY (s : State) : (afterEncrypt s).KEY = s.KEY := rfl
@[simp] theorem afterEncrypt_RK (s : State) : (afterEncrypt s).RK = keyExpand s.KEY := rfl
@[simp] theorem afterEncrypt_TR (s : State) : (afterEncrypt s).TR = traceOf (keyExpand s.KEY) s.S := rfl
@[simp] theorem afterEncrypt_RES (s : State) : (afterEncrypt s).RES = s.RES := rfl
@[simp] theorem afterEncrypt_STATUS (s : State) : (afterEncrypt s).STATUS = setRnd s.STATUS 0xA#4 := rfl

/-! ### The frame: what a row of the access matrix does not write -/

/-- From `s` to `t` only parts of `W` change: every other part, the reserved bits of `STATUS` and the interface stay. -/
def ChangesOnly (W : Part → Bool) (s t : State) : Prop :=
  (∀ p : Part, W p = false → SameAt s t p) ∧
    reservedOf t.STATUS = reservedOf s.STATUS ∧ t.busy = s.busy ∧ t.host = s.host ∧ t.lastRead = s.lastRead

theorem changesOnly_writeS (s : State) (b : Block) : ChangesOnly (fun p => decide (p = .S)) s (writeS s b) := by
  refine ⟨fun p hp => ?_, rfl, rfl, rfl, rfl⟩
  cases p
  case S => cases hp
  all_goals rfl

theorem changesOnly_writeKey (s : State) (b : Block) : ChangesOnly (fun p => decide (p = .KEY)) s (writeKey s b) := by
  refine ⟨fun p hp => ?_, rfl, rfl, rfl, rfl⟩
  cases p
  case KEY => cases hp
  all_goals rfl

theorem changesOnly_writeRes (s : State) (v : Byte) : ChangesOnly (fun p => decide (p = .RES)) s (writeRes s v) := by
  refine ⟨fun p hp => ?_, rfl, rfl, rfl, rfl⟩
  cases p
  case RES => cases hp
  all_goals rfl

theorem changesOnly_raiseInvalidInput (s : State) :
    ChangesOnly (fun p => decide (p = .ERR)) s (raiseInvalidInput s) := by
  refine ⟨fun p hp => ?_, by simp, rfl, rfl, rfl⟩
  cases p
  case RND => simp [SameAt]
  case ERR => cases hp
  all_goals rfl

theorem changesOnly_writeRK (s : State) (W : Bank) : ChangesOnly (writesPart .keyexpand) s (writeRK s W) := by
  refine ⟨fun p hp => ?_, rfl, rfl, rfl, rfl⟩
  cases p
  case RK => cases hp
  all_goals rfl

theorem changesOnly_afterEncrypt (s : State) : ChangesOnly (writesPart .encrypt) s (afterEncrypt s) := by
  refine ⟨fun p hp => ?_, by simp, rfl, rfl, rfl⟩
  cases p
  case KEY | RES => rfl
  case ERR => simp [SameAt]
  all_goals cases hp

theorem writesPart_addroundkey_of_le {k : BitVec 4} (hk : k.toNat ≤ 10) :
    writesPart (.addroundkey k) = fun p => decide (p = .S) :=
  funext fun _ => if_pos hk

theorem writesPart_addroundkey_of_gt {k : BitVec 4} (hk : 10 < k.toNat) :
    writesPart (.addroundkey k) = fun p => decide (p = .ERR) :=
  funext fun _ => if_neg (not_le.mpr hk)

/-- R34, the `W` entries, for every command. -/
theorem exec_changesOnly {i : Instr} {s t : State} (h : exec i s = .next t) : ChangesOnly (writesPart i) s t := by
  cases i with
  | gfmul a b => cases (exec_gfmul a b s).symm.trans h; exact changesOnly_writeRes s _
  | sbox a => cases (exec_sbox a s).symm.trans h; exact changesOnly_writeRes s _
  | subbytes => cases (exec_subbytes s).symm.trans h; exact changesOnly_writeS s _
  | shiftrows => cases (exec_shiftrows s).symm.trans h; exact changesOnly_writeS s _
  | mixcolumns => cases (exec_mixcolumns s).symm.trans h; exact changesOnly_writeS s _
  | addroundkey k =>
    by_cases hk : k.toNat ≤ 10
    · cases (exec_addroundkey_of_le hk s).symm.trans h
      exact writesPart_addroundkey_of_le hk ▸ changesOnly_writeS s _
    · cases (exec_addroundkey_of_gt (not_le.mp hk) s).symm.trans h
      exact writesPart_addroundkey_of_gt (not_le.mp hk) ▸ changesOnly_raiseInvalidInput s
  | keyexpand => cases (exec_keyexpand s).symm.trans h; exact changesOnly_writeRK s _
  | encrypt => cases (exec_encrypt s).symm.trans h; exact changesOnly_afterEncrypt s
  | lds d => cases (exec_lds d s).symm.trans h; exact changesOnly_writeS s d
  | ldk d => cases (exec_ldk d s).symm.trans h; exact changesOnly_writeKey s d

/-- Settles O44: each row's meaning is the one write of its row, and each write has its frame. -/
theorem accessMatrixFrame : Obligations.AccessMatrixFrame :=
  fun _ _ _ h => exec_changesOnly h

/-! ### What a row writes is a function of what it reads -/

/-- The key addition writes `S` from `S` and the one entry its index names; with an index that names none, the
exception sets `ERR` whatever it was (R130). -/
theorem exec_addroundkey_reads {k : BitVec 4} {s s' t t' : State}
    (hread : ∀ p, readsPart (.addroundkey k) p = true → SameAt s s' p)
    (h : exec (.addroundkey k) s = .next t) (h' : exec (.addroundkey k) s' = .next t')
    {p : Part} (hp : writesPart (.addroundkey k) p = true) : SameAt t t' p := by
  by_cases hk : k.toNat ≤ 10
  · cases (exec_addroundkey_of_le hk s).symm.trans h
    cases (exec_addroundkey_of_le hk s').symm.trans h'
    rw [writesPart_addroundkey_of_le hk] at hp
    obtain rfl : p = .S := of_decide_eq_true hp
    have hS : s.S = s'.S := hread .S (by simp [readsPart, roundKeyIndex_of_le hk])
    have hRK : bankAt s.RK ⟨k.toNat, Nat.lt_succ_of_le hk⟩ = bankAt s'.RK ⟨k.toNat, Nat.lt_succ_of_le hk⟩ :=
      hread (.RK _) (by simp [readsPart, roundKeyIndex_of_le hk])
    exact congrArg₂ addRoundKey hS hRK
  · cases (exec_addroundkey_of_gt (not_le.mp hk) s).symm.trans h
    cases (exec_addroundkey_of_gt (not_le.mp hk) s').symm.trans h'
    rw [writesPart_addroundkey_of_gt (not_le.mp hk)] at hp
    obtain rfl : p = .ERR := of_decide_eq_true hp
    simp [SameAt]

/-- After `ENCRYPT` the parts it writes are those of any state with the same `S` and `KEY` (R154). -/
theorem afterEncrypt_reads {s s' : State} (hS : s.S = s'.S) (hKEY : s.KEY = s'.KEY)
    {p : Part} (hp : writesPart .encrypt p = true) : SameAt (afterEncrypt s) (afterEncrypt s') p := by
  cases p
  case S | RK | TR | RND => simp [SameAt, hS, hKEY]
  all_goals cases hp

/-- A command that writes `S` alone agrees after two states on what it writes as soon as it writes the same block. -/
theorem sameAt_writeS {s s' : State} {b b' : Block} (hb : b = b') {p : Part} (hp : decide (p = .S) = true) :
    SameAt (writeS s b) (writeS s' b') p := by
  obtain rfl := of_decide_eq_true hp
  exact hb

/-- A command that writes `RES` alone with a value its operands fix agrees with itself after any two states. -/
theorem sameAt_writeRes (s s' : State) (v : Byte) {p : Part} (hp : decide (p = .RES) = true) :
    SameAt (writeRes s v) (writeRes s' v) p := by
  obtain rfl := of_decide_eq_true hp
  rfl

/-- Settles O45: each written part is a function of the operands and of the parts the row reads. -/
theorem accessMatrixReads : Obligations.AccessMatrixReads := by
  intro i s s' t t' hread h h' p hp
  cases i with
  | gfmul a b =>
    cases (exec_gfmul a b s).symm.trans h; cases (exec_gfmul a b s').symm.trans h'
    exact sameAt_writeRes s s' _ hp
  | sbox a =>
    cases (exec_sbox a s).symm.trans h; cases (exec_sbox a s').symm.trans h'
    exact sameAt_writeRes s s' _ hp
  | subbytes =>
    cases (exec_subbytes s).symm.trans h; cases (exec_subbytes s').symm.trans h'
    exact sameAt_writeS (congrArg subBytes (hread .S rfl)) hp
  | shiftrows =>
    cases (exec_shiftrows s).symm.trans h; cases (exec_shiftrows s').symm.trans h'
    exact sameAt_writeS (congrArg shiftRows (hread .S rfl)) hp
  | mixcolumns =>
    cases (exec_mixcolumns s).symm.trans h; cases (exec_mixcolumns s').symm.trans h'
    exact sameAt_writeS (congrArg mixColumns (hread .S rfl)) hp
  | addroundkey k => exact exec_addroundkey_reads hread h h' hp
  | keyexpand =>
    cases (exec_keyexpand s).symm.trans h; cases (exec_keyexpand s').symm.trans h'
    have hKEY : s.KEY = s'.KEY := hread .KEY rfl
    cases p
    case RK => simp only [SameAt, writeRK_RK, hKEY]
    all_goals cases hp
  | encrypt =>
    cases (exec_encrypt s).symm.trans h; cases (exec_encrypt s').symm.trans h'
    exact afterEncrypt_reads (hread .S rfl) (hread .KEY rfl) hp
  | lds d =>
    cases (exec_lds d s).symm.trans h; cases (exec_lds d s').symm.trans h'
    exact sameAt_writeS rfl hp
  | ldk d =>
    cases (exec_ldk d s).symm.trans h; cases (exec_ldk d s').symm.trans h'
    obtain rfl : p = .KEY := of_decide_eq_true hp
    rfl

/-! ### The columns of the access matrix: which rows write a part -/

theorem writesPart_KEY {i : Instr} (h : writesPart i .KEY = true) : ∃ d, i = .ldk d := by
  cases i
  case ldk d => exact ⟨d, rfl⟩
  all_goals simp [writesPart] at h

theorem writesPart_RK {i : Instr} {k : Fin 11} (h : writesPart i (.RK k) = true) : i = .keyexpand ∨ i = .encrypt := by
  cases i
  case keyexpand => exact .inl rfl
  case encrypt => exact .inr rfl
  all_goals simp [writesPart] at h

theorem writesPart_TR {i : Instr} {k : Fin 11} (h : writesPart i (.TR k) = true) : i = .encrypt := by
  cases i
  case encrypt => rfl
  all_goals simp [writesPart] at h

theorem writesPart_RES {i : Instr} (h : writesPart i .RES = true) : ∃ a, (∃ b, i = .gfmul a b) ∨ i = .sbox a := by
  cases i
  case gfmul a b => exact ⟨a, .inl ⟨b, rfl⟩⟩
  case sbox a => exact ⟨a, .inr rfl⟩
  all_goals simp [writesPart] at h

theorem writesPart_RND {i : Instr} (h : writesPart i .RND = true) : i = .encrypt := by
  cases i
  case encrypt => rfl
  all_goals simp [writesPart] at h

/-! ### A part that changed was written -/

theorem exists_bankAt_ne {A B : Bank} (h : A ≠ B) : ∃ k, bankAt A k ≠ bankAt B k := by
  by_contra hall
  exact h (bank_ext (not_exists_not.mp hall))

section
variable {i : Instr} {s t : State} (h : exec i s = .next t)
include h

theorem writesPart_of_changed {p : Part} (hp : ¬ SameAt s t p) : writesPart i p = true := by
  obtain ⟨hframe, -⟩ := exec_changesOnly h
  by_contra hw
  exact hp (hframe p (Bool.eq_false_of_not_eq_true hw))

theorem eq_ldk_of_KEY_changed (hne : t.KEY ≠ s.KEY) : ∃ d, i = .ldk d :=
  writesPart_KEY (writesPart_of_changed h (p := .KEY) (Ne.symm hne))

theorem eq_keyexpand_or_encrypt_of_RK_changed (hne : t.RK ≠ s.RK) : i = .keyexpand ∨ i = .encrypt := by
  obtain ⟨k, hk⟩ := exists_bankAt_ne hne
  exact writesPart_RK (writesPart_of_changed h (p := .RK k) (Ne.symm hk))

theorem eq_encrypt_of_TR_changed (hne : t.TR ≠ s.TR) : i = .encrypt := by
  obtain ⟨k, hk⟩ := exists_bankAt_ne hne
  exact writesPart_TR (writesPart_of_changed h (p := .TR k) (Ne.symm hk))

theorem eq_gfmul_or_sbox_of_RES_changed (hne : t.RES ≠ s.RES) : ∃ a, (∃ b, i = .gfmul a b) ∨ i = .sbox a :=
  writesPart_RES (writesPart_of_changed h (p := .RES) (Ne.symm hne))

theorem eq_encrypt_of_RND_changed (hne : rndOf t.STATUS ≠ rndOf s.STATUS) : i = .encrypt :=
  writesPart_RND (writesPart_of_changed h (p := .RND) (Ne.symm hne))

end

end Sys2Proof.Proofs
end

section
/-!
PROOFS of the family 10_state.md, second part: what a whole step does to the registers, the invariant of the machine,
and the views of a block and of `STATUS`.
-/

namespace Sys2Proof.Proofs

open Sys2Proof Sys2Proof.Machine Sys2Proof.Safety

/-- Two states hold the same in every architectural register (R20); the interface is not compared. -/
structure SameRegisters (s t : State) : Prop where
  S : t.S = s.S
  KEY : t.KEY = s.KEY
  RK : t.RK = s.RK
  TR : t.TR = s.TR
  RES : t.RES = s.RES
  STATUS : t.STATUS = s.STATUS

/-- What a step does to the registers: nothing; a reset; or the command sampled before completes, on registers as they
stand (R54, R200, R201). -/
theorem step_registers_cases {s t : State} (h : step s = .next t) :
    SameRegisters s t ∨ (s.host.head? = some .reset ∧ SameRegisters State.reset t) ∨
      ∃ c u, s.busy = some c ∧ SameRegisters s u ∧ runCommand c u = .next t := by
  obtain ⟨-, hidle⟩ | ⟨c, hc, hbusy⟩ := step_cases h
  · obtain ⟨-, rfl⟩ | ⟨rest, ⟨c, -, rfl⟩ | ⟨r, -, rfl⟩ | ⟨hhost, rfl⟩ | ⟨-, rfl⟩⟩ := idleStep_cases hidle
    · exact .inl ⟨rfl, rfl, rfl, rfl, rfl, rfl⟩
    · exact .inl ⟨rfl, rfl, rfl, rfl, rfl, rfl⟩
    · exact .inl ⟨rfl, rfl, rfl, rfl, rfl, rfl⟩
    · exact .inr (.inl ⟨by rw [hhost, List.head?_cons], rfl, rfl, rfl, rfl, rfl, rfl⟩)
    · exact .inl ⟨rfl, rfl, rfl, rfl, rfl, rfl⟩
  · obtain ⟨-, hrun⟩ | ⟨rest, ⟨-, hrun⟩ | ⟨hhost, rfl⟩⟩ := busyStep_cases hbusy
    · exact .inr (.inr ⟨c, becomeIdle s, hc, ⟨rfl, rfl, rfl, rfl, rfl, rfl⟩, hrun⟩)
    · exact .inr (.inr ⟨c, becomeIdle (setHost s rest), hc, ⟨rfl, rfl, rfl, rfl, rfl, rfl⟩, hrun⟩)
    · exact .inr (.inl ⟨by rw [hhost, List.head?_cons], rfl, rfl, rfl, rfl, rfl, rfl⟩)

/-- Which decoded instructions stand behind a change of `KEY`, `RK`, `TR`, `RES` and `RND` (R23 to R26, R28). -/
def ChangesByTheirCommands (c : Command) (s t : State) : Prop :=
  (t.KEY ≠ s.KEY → ∃ d, decode c = .ok (.ldk d)) ∧
  (t.RK ≠ s.RK → decode c = .ok .keyexpand ∨ decode c = .ok .encrypt) ∧
  (t.TR ≠ s.TR → decode c = .ok .encrypt) ∧
  (t.RES ≠ s.RES → ∃ a, (∃ b, decode c = .ok (.gfmul a b)) ∨ decode c = .ok (.sbox a)) ∧
  (rndOf t.STATUS ≠ rndOf s.STATUS → rndOf t.STATUS = 10#4 ∧ decode c = .ok .encrypt)

theorem exec_encrypt_rnd {s t : State} (h : exec .encrypt s = .next t) : rndOf t.STATUS = 0xA#4 := by
  cases (exec_encrypt s).symm.trans h
  simp

theorem runCommand_changes {c : Command} {s t : State} (h : runCommand c s = .next t) :
    ChangesByTheirCommands c s t := by
  obtain ⟨i, hdec, hrun⟩ | ⟨e, -, hrun⟩ := runCommand_cases c s
  · have hexec : exec i s = .next t := hrun.symm.trans h
    unfold ChangesByTheirCommands
    simp only [hdec, Except.ok.injEq]
    refine ⟨eq_ldk_of_KEY_changed hexec, eq_keyexpand_or_encrypt_of_RK_changed hexec, eq_encrypt_of_TR_changed hexec,
      eq_gfmul_or_sbox_of_RES_changed hexec, fun hne => ?_⟩
    obtain rfl := eq_encrypt_of_RND_changed hexec hne
    exact ⟨exec_encrypt_rnd hexec, rfl⟩
  · cases hrun.symm.trans h
    simp [ChangesByTheirCommands]

/-- Settles O46: a step that is no reset and completes no command keeps the registers, and a completed command changes
only what its row of the access matrix writes. -/
theorem onlyTheirCommandsWriteRegisters : Obligations.OnlyTheirCommandsWriteRegisters := by
  intro s t h hnoreset
  obtain hsame | ⟨hreset, -⟩ | ⟨c, u, hc, hsame, hrun⟩ := step_registers_cases h
  · simp [hsame.KEY, hsame.RK, hsame.TR, hsame.RES, hsame.STATUS]
  · exact absurd hreset hnoreset
  · obtain ⟨hKEY, hRK, hTR, hRES, hRND⟩ := runCommand_changes hrun
    rw [hsame.KEY] at hKEY
    rw [hsame.RK] at hRK
    rw [hsame.TR] at hTR
    rw [hsame.RES] at hRES
    rw [hsame.STATUS] at hRND
    refine ⟨fun hne => ?_, fun hne => ⟨c, hc, hRK hne⟩, fun hne => ⟨c, hc, hTR hne⟩, fun hne => ?_, fun hne => ?_⟩
    · obtain ⟨d, hd⟩ := hKEY hne
      exact ⟨c, d, hc, hd⟩
    · obtain ⟨a, ha⟩ := hRES hne
      exact ⟨c, a, hc, ha⟩
    · obtain ⟨h10, hdec⟩ := hRND hne
      exact ⟨h10, c, hc, hdec⟩

/-! ### The invariant -/

/-- The invariant speaks of `RK`, `TR` and two fields of `STATUS` only. -/
theorem machineInvariant_of_same {s t : State} (hs : MachineInvariant s)
    (hres : reservedOf t.STATUS = reservedOf s.STATUS) (hrnd : rndOf t.STATUS = rndOf s.STATUS)
    (hRK : t.RK = s.RK) (hTR : t.TR = s.TR) : MachineInvariant t where
  reserved_zero := hres ▸ hs.reserved_zero
  rnd_legal := hrnd ▸ hs.rnd_legal
  before_encrypt := hrnd ▸ hRK ▸ hTR ▸ hs.before_encrypt
  after_encrypt := hrnd ▸ hRK ▸ hTR ▸ hs.after_encrypt

theorem machineInvariant_of_sameRegisters {s t : State} (hs : MachineInvariant s) (h : SameRegisters s t) :
    MachineInvariant t :=
  machineInvariant_of_same hs (by rw [h.STATUS]) (by rw [h.STATUS]) h.RK h.TR

/-- Settles O49: `RND` is 0 after reset and both banks are zero. -/
theorem invariantHoldsAtReset : Obligations.InvariantHoldsAtReset where
  reserved_zero := by decide
  rnd_legal := .inl (by decide)
  before_encrypt _ := ⟨rfl, .inl rfl⟩
  after_encrypt h := absurd h (by decide)

theorem writeRK_keeps_invariant {s : State} (hs : MachineInvariant s) (K : Block) :
    MachineInvariant (writeRK s (keyExpand K)) where
  reserved_zero := hs.reserved_zero
  rnd_legal := hs.rnd_legal
  before_encrypt h := ⟨(hs.before_encrypt h).1, .inr ⟨K, rfl⟩⟩
  after_encrypt h := ⟨(hs.after_encrypt h).1, K, rfl⟩

theorem afterEncrypt_keeps_invariant {s : State} (hs : MachineInvariant s) : MachineInvariant (afterEncrypt s) where
  reserved_zero := by simpa using hs.reserved_zero
  rnd_legal := .inr (by simp)
  before_encrypt h := absurd h (by simp)
  after_encrypt _ := ⟨⟨s.S, s.KEY, rfl⟩, s.KEY, rfl⟩

/-- `KEYEXPAND` writes one whole expansion, `ENCRYPT` an expansion and its trace with `RND` = 10, and no other command
writes a part the invariant speaks of. -/
theorem exec_keeps_invariant {i : Instr} {s t : State} (hs : MachineInvariant s) (h : exec i s = .next t) :
    MachineInvariant t := by
  by_cases hk : i = .keyexpand
  · subst hk
    cases (exec_keyexpand s).symm.trans h
    exact writeRK_keeps_invariant hs s.KEY
  by_cases he : i = .encrypt
  · subst he
    cases (exec_encrypt s).symm.trans h
    exact afterEncrypt_keeps_invariant hs
  obtain ⟨-, hres, -⟩ := exec_changesOnly h
  have hrnd : rndOf t.STATUS = rndOf s.STATUS := not_imp_comm.mp (eq_encrypt_of_RND_changed h) he
  have hRK : t.RK = s.RK := not_imp_comm.mp (eq_keyexpand_or_encrypt_of_RK_changed h) (not_or.mpr ⟨hk, he⟩)
  have hTR : t.TR = s.TR := not_imp_comm.mp (eq_encrypt_of_TR_changed h) he
  exact machineInvariant_of_same hs hres hrnd hRK hTR

theorem raiseInvalidInput_keeps_invariant {s : State} (hs : MachineInvariant s) :
    MachineInvariant (raiseInvalidInput s) :=
  machineInvariant_of_same hs (by simp) (by simp) rfl rfl

theorem runCommand_keeps_invariant {c : Command} {s t : State} (hs : MachineInvariant s)
    (h : runCommand c s = .next t) : MachineInvariant t := by
  obtain ⟨i, -, hrun⟩ | ⟨e, -, hrun⟩ := runCommand_cases c s
  · exact exec_keeps_invariant hs (hrun.symm.trans h)
  · cases hrun.symm.trans h
    exact raiseInvalidInput_keeps_invariant hs

/-- Settles O48: a step keeps the registers, resets them, or completes one command, and each keeps the invariant. -/
theorem stepKeepsInvariant : Obligations.StepKeepsInvariant := by
  intro s t hs h
  obtain hsame | ⟨-, hsame⟩ | ⟨c, u, -, hsame, hrun⟩ := step_registers_cases h
  · exact machineInvariant_of_sameRegisters hs hsame
  · exact machineInvariant_of_sameRegisters invariantHoldsAtReset hsame
  · exact runCommand_keeps_invariant (machineInvariant_of_sameRegisters hs hsame) hrun

/-! ### The matrix view, the reset values and the host's view of STATUS -/

/-- Settles O34: the two index maps are inverse to each other, and a block is determined by its cells. -/
theorem matrixMappingIsColumnMajor : Obligations.MatrixMappingIsColumnMajor :=
  ⟨cell_rowOfIndex_colOfIndex, fun _ _ _ => rfl,
    fun f => ⟨matrixOf f, cell_matrixOf f, fun B hB => block_ext_cells fun r c => by rw [hB, cell_matrixOf]⟩⟩

/-- Round key 1 of the all-zero key (R33): every column is the substituted zero word with the first round constant. -/
theorem roundKey_one_zeroBlock :
    roundKey zeroBlock 1 (by decide) = blockOfFlat 0x62636363626363636263636362636363#128 := by
  decide

/-- Settles O35: the reset registers are the zero block, the zero bank and zero bytes; round key 1 of the zero key is
computed. -/
theorem resetRegistersAreZero : Obligations.ResetRegistersAreZero := by
  refine ⟨byteAt_zeroBlock, byteAt_zeroBlock, ?_, ?_, rfl, by decide, by decide, by decide, ?_⟩
  · intro k i
    rw [reset_RK, bankAt_zeroBank, byteAt_zeroBlock]
  · intro k i
    rw [reset_TR, bankAt_zeroBank, byteAt_zeroBlock]
  · exact (bankAt_keyExpand zeroBlock 1).trans roundKey_one_zeroBlock

/-- Settles O37: the view masks bits 3:1 and keeps the two fields. -/
theorem statusReadsItsFields : Obligations.StatusReadsItsFields := by
  intro s
  have hreserved : ∀ i, i < 3 → (statusView s.STATUS).getLsbD (1 + i) = false := fun i hi => by
    simpa [reservedOf, hi] using congrArg (·.getLsbD i) (reservedOf_statusView s.STATUS)
  exact ⟨statusView s.STATUS, rfl, errOf_statusView _, hreserved 0 (by decide), hreserved 1 (by decide),
    hreserved 2 (by decide), rndOf_statusView _⟩

end Sys2Proof.Proofs
end

section
/-!
PROOFS of the family 20_memory.md: where bytes and entries lie in the flat views (R51), the idempotent commands (R55),
the step of an idle block (R61, R172, R194) and several instances (R63).
-/

namespace Sys2Proof.Proofs

open Sys2Proof Sys2Proof.Machine

/-! ### The flat views (R51) -/

/-- Of the 16 places of the flat view only that of byte `i` contributes to a bit of byte `i`. -/
theorem getLsbD_flatOfBlock (B : Block) (i : Fin 16) {j : Nat} (hj : j < 8) :
    (flatOfBlock B).getLsbD (120 - 8 * i.val + j) = (byteAt B i).getLsbD j := by
  simp only [flatOfBlock, BitVec.getLsbD_or, getLsbD_flatByte B _ i hj]
  fin_cases i <;> simp

/-- Of the 11 places of the flat view only that of entry `k` contributes to a bit of entry `k`. -/
theorem getLsbD_flatOfBank (W : Bank) (k : Fin 11) {j : Nat} (hj : j < 128) :
    (flatOfBank W).getLsbD (1280 - 128 * k.val + j) = (flatOfBlock (bankAt W k)).getLsbD j := by
  simp only [flatOfBank, BitVec.getLsbD_or, getLsbD_flatEntry W _ k hj]
  fin_cases k <;> simp

theorem extractLsb'_flatOfBlock (B : Block) (i : Fin 16) :
    (flatOfBlock B).extractLsb' (120 - 8 * i.val) 8 = byteAt B i :=
  BitVec.eq_of_getLsbD_eq fun j hj => by
    rw [BitVec.getLsbD_extractLsb', getLsbD_flatOfBlock B i hj, decide_eq_true hj, Bool.true_and]

theorem extractLsb'_flatOfBank (W : Bank) (k : Fin 11) :
    (flatOfBank W).extractLsb' (1280 - 128 * k.val) 128 = flatOfBlock (bankAt W k) :=
  BitVec.eq_of_getLsbD_eq fun j hj => by
    rw [BitVec.getLsbD_extractLsb', getLsbD_flatOfBank W k hj, decide_eq_true hj, Bool.true_and]

/-- The 16 byte places cover the 128 bits: bit `n` is bit `n % 8` of byte `15 - n / 8`. -/
theorem flat_ext {v w : BitVec 128}
    (h : ∀ i : Fin 16, v.extractLsb' (120 - 8 * i.val) 8 = w.extractLsb' (120 - 8 * i.val) 8) : v = w := by
  refine BitVec.eq_of_getLsbD_eq fun n hn => ?_
  have hbyte := congrArg (·.getLsbD (n % 8)) (h ⟨15 - n / 8, by omega⟩)
  have hplace : 120 - 8 * (15 - n / 8) + n % 8 = n := by omega
  have hbit : n % 8 < 8 := Nat.mod_lt n (by decide)
  simpa [BitVec.getLsbD_extractLsb', hplace, hbit] using hbyte

theorem flatOfBlock_blockOfFlat (v : BitVec 128) : flatOfBlock (blockOfFlat v) = v :=
  flat_ext fun i => by rw [extractLsb'_flatOfBlock, byteAt_blockOfFlat]

/-- Settles O33: each bit of a flat view comes from one place, and the places cover the view. -/
theorem flatViewsPlaceBytes : Obligations.FlatViewsPlaceBytes :=
  ⟨extractLsb'_flatOfBlock, flatOfBlock_blockOfFlat, extractLsb'_flatOfBank⟩

/-! ### Writing the same value twice (R55) -/

theorem writeRes_writeRes (s : State) (v : Byte) : writeRes (writeRes s v) v = writeRes s v := rfl

theorem writeS_writeS (s : State) (b : Block) : writeS (writeS s b) b = writeS s b := rfl

theorem writeKey_writeKey (s : State) (b : Block) : writeKey (writeKey s b) b = writeKey s b := rfl

theorem writeRK_writeRK (s : State) (W : Bank) : writeRK (writeRK s W) W = writeRK s W := rfl

/-- Settles O47: each of these commands is one write of a value that the write itself does not change; for `KEYEXPAND`
that value is the expansion of `KEY`, which it leaves as it was. -/
theorem idempotentCommands : Obligations.IdempotentCommands := by
  rintro i s t (⟨a, b, rfl⟩ | ⟨a, rfl⟩ | ⟨d, rfl⟩ | ⟨d, rfl⟩ | rfl) h
  · cases (exec_gfmul a b s).symm.trans h
    rw [exec_gfmul, writeRes_writeRes]
  · cases (exec_sbox a s).symm.trans h
    rw [exec_sbox, writeRes_writeRes]
  · cases (exec_lds d s).symm.trans h
    rw [exec_lds, writeS_writeS]
  · cases (exec_ldk d s).symm.trans h
    rw [exec_ldk, writeKey_writeKey]
  · cases (exec_keyexpand s).symm.trans h
    rw [exec_keyexpand, writeRK_KEY, writeRK_writeRK]

/-! ### The step of an idle block, one equation per action of the host -/

section
variable {s : State} {rest : List HostAction} (hidle : s.busy = none)
include hidle

theorem step_of_idle : step s = idleStep s := by
  simp only [step, hostStep, hidle]

theorem step_idle_nil (hhost : s.host = []) : step s = .next s := by
  simp only [step_of_idle hidle, idleStep, hhost]

theorem step_idle_wait (hhost : s.host = .wait :: rest) : step s = .next (setHost s rest) := by
  simp only [step_of_idle hidle, idleStep, hhost]

theorem step_idle_issue {c : Command} (hhost : s.host = .issue c :: rest) :
    step s = .next (acceptCommand (setHost s rest) c) := by
  simp only [step_of_idle hidle, idleStep, hhost]

theorem step_idle_read {r : Reg} (hhost : s.host = .read r :: rest) :
    step s = .next (hostRead (setHost s rest) r) := by
  simp only [step_of_idle hidle, idleStep, hhost]

end

/-- Settles O38: the step is the host read, which returns the named register and writes only `lastRead`. -/
theorem hostReadHasNoSideEffect : Obligations.HostReadHasNoSideEffect := by
  intro s r rest hidle hhost
  rw [step_idle_read hidle hhost]
  cases r <;> rfl

/-- Settles O39: acceptance writes only the sampled command, and waiting only takes the host's action. -/
theorem idleBlockAcceptsOrWaits : Obligations.IdleBlockAcceptsOrWaits :=
  ⟨fun _ _ _ hidle hhost => step_idle_issue hidle hhost, fun _ _ => step_idle_wait, fun _ => step_idle_nil⟩

/-! ### Several instances (R63) -/

/-- What a step of instance `n` that answers was: a step of that instance, put back at its position. -/
theorem stepInstance_cases {l l' : List State} {n : Nat} (h : stepInstance l n = some l') :
    ∃ s t, l[n]? = some s ∧ step s = .next t ∧ l' = l.set n t := by
  unfold stepInstance at h
  split at h
  · cases h
  · next s hs =>
    split at h
    · next t ht =>
      cases h
      exact ⟨s, t, hs, ht, rfl⟩
    · cases h
    · cases h

/-- Settles O50: replacing one entry of a list keeps its length and its other entries. -/
theorem instancesShareNothing : Obligations.InstancesShareNothing := by
  intro l l' n h
  obtain ⟨s, t, hs, ht, rfl⟩ := stepInstance_cases h
  obtain ⟨hn, -⟩ := List.getElem?_eq_some_iff.mp hs
  exact ⟨List.length_set, fun m hm => List.getElem?_set_ne (Ne.symm hm), s, t, hs, ht, List.getElem?_set_self hn⟩

end Sys2Proof.Proofs
end

section
/-!
PROOFS of the family 30_encoding.md, first part: the decoder and the encoder (R71 to R80). What a command decodes to is
said once, row by row, as the relation `DecodesTo`; the later proofs split on its rows.
-/

namespace Sys2Proof.Proofs

open Sys2Proof Sys2Proof.Machine Sys2Proof.Safety

/-! ### The rows of the decoder (R79) -/

/-- `DecodesTo c r`: by its fields, the command `c` belongs to the row of R79 that answers `r`. -/
inductive DecodesTo (c : Command) : Except DecodeError Instr → Prop
  | gfmul (hop : opField c.cmd = 0x0#4) : DecodesTo c (.ok (.gfmul (aField c.cmd) (bField c.cmd)))
  | sbox (hop : opField c.cmd = 0x1#4) : DecodesTo c (.ok (.sbox (aField c.cmd)))
  | subbytes (hop : opField c.cmd = 0x2#4) : DecodesTo c (.ok .subbytes)
  | shiftrows (hop : opField c.cmd = 0x3#4) : DecodesTo c (.ok .shiftrows)
  | mixcolumns (hop : opField c.cmd = 0x4#4) : DecodesTo c (.ok .mixcolumns)
  | addroundkey (hop : opField c.cmd = 0x5#4) (hk : (kField c.cmd).toNat ≤ 10) :
      DecodesTo c (.ok (.addroundkey (kField c.cmd)))
  | indexOutOfRange (hop : opField c.cmd = 0x5#4) (hk : 10 < (kField c.cmd).toNat) :
      DecodesTo c (.error (.roundKeyIndexOutOfRange (kField c.cmd)))
  | keyexpand (hop : opField c.cmd = 0x6#4) : DecodesTo c (.ok .keyexpand)
  | encrypt (hop : opField c.cmd = 0x7#4) : DecodesTo c (.ok .encrypt)
  | lds (hop : opField c.cmd = 0x8#4) : DecodesTo c (.ok (.lds (blockOperand c.din)))
  | ldk (hop : opField c.cmd = 0x9#4) : DecodesTo c (.ok (.ldk (blockOperand c.din)))
  | reserved (hop : 10 ≤ (opField c.cmd).toNat) : DecodesTo c (.error (.reservedOpcode (opField c.cmd)))

/-- The operation codes: the ten of R74 in order, and 0xA..0xF (R75). -/
theorem opcode_cases (op : BitVec 4) :
    op = 0x0#4 ∨ op = 0x1#4 ∨ op = 0x2#4 ∨ op = 0x3#4 ∨ op = 0x4#4 ∨ op = 0x5#4 ∨ op = 0x6#4 ∨ op = 0x7#4 ∨
      op = 0x8#4 ∨ op = 0x9#4 ∨ 10 ≤ op.toNat := by
  bv_omega

/-- An operation code from 0xA on is none of the ten of R74. -/
theorem ne_of_ten_le {op n : BitVec 4} (h : 10 ≤ op.toNat) (hn : n.toNat < 10) : op ≠ n :=
  fun e => by subst e; omega

/-- The rows of R79 cover every command. -/
theorem exists_decodesTo (c : Command) : ∃ r, DecodesTo c r := by
  obtain h | h | h | h | h | h | h | h | h | h | h := opcode_cases (opField c.cmd)
  · exact ⟨_, .gfmul h⟩
  · exact ⟨_, .sbox h⟩
  · exact ⟨_, .subbytes h⟩
  · exact ⟨_, .shiftrows h⟩
  · exact ⟨_, .mixcolumns h⟩
  · obtain hk | hk := le_or_gt (kField c.cmd).toNat 10
    · exact ⟨_, .addroundkey h hk⟩
    · exact ⟨_, .indexOutOfRange h hk⟩
  · exact ⟨_, .keyexpand h⟩
  · exact ⟨_, .encrypt h⟩
  · exact ⟨_, .lds h⟩
  · exact ⟨_, .ldk h⟩
  · exact ⟨_, .reserved h⟩

/-- The rows of R79 are exclusive: the decoder answers what the command's row says. -/
theorem DecodesTo.decode_eq {c : Command} {r : Except DecodeError Instr} (h : DecodesTo c r) : decode c = r := by
  cases h with
  | addroundkey hop hk =>
    rw [decode, hop]
    exact if_pos hk
  | indexOutOfRange hop hk =>
    rw [decode, hop]
    exact if_neg (not_le.mpr hk)
  | reserved hop =>
    have hne : ∀ n : BitVec 4, n.toNat < 10 → opField c.cmd ≠ n := fun n => ne_of_ten_le hop
    simp [decode, hne]
  | _ hop =>
    rw [decode, hop]
    rfl

theorem decode_eq_iff {c : Command} {r : Except DecodeError Instr} : decode c = r ↔ DecodesTo c r := by
  refine ⟨fun h => ?_, DecodesTo.decode_eq⟩
  obtain ⟨r', hr'⟩ := exists_decodesTo c
  rwa [← h, hr'.decode_eq]

theorem wf_of_decode_eq_ok {c : Command} {i : Instr} (h : decode c = .ok i) : i.wf = true := by
  cases decode_eq_iff.mp h
  case addroundkey _ hk => exact decide_eq_true hk
  all_goals rfl

/-! ### Decoding what was encoded (R80) -/

/-- The block operand of a load takes its block back out of the flat view of `DIN` (R51, R73). -/
@[simp] theorem blockOperand_flatOfBlock (d : Block) : blockOperand (flatOfBlock d) = d :=
  block_ext fun i => (byteAt_blockOfFlat _ i).trans (extractLsb'_flatOfBlock d i)

@[simp] theorem opField_encode (i : Instr) : opField (encode i).cmd = opcodeOf i := by
  cases i <;> exact opField_commandWord ..

/-- The canonical command of a well-formed instruction belongs to the instruction's row of R79. -/
theorem decodesTo_encode {i : Instr} (hwf : i.wf = true) : DecodesTo (encode i) (.ok i) := by
  cases i with
  | gfmul a b => simpa [encode] using DecodesTo.gfmul (opField_encode (.gfmul a b))
  | sbox a => simpa [encode] using DecodesTo.sbox (opField_encode (.sbox a))
  | subbytes => exact .subbytes (opField_encode _)
  | shiftrows => exact .shiftrows (opField_encode _)
  | mixcolumns => exact .mixcolumns (opField_encode _)
  | addroundkey k =>
    have hkField : kField (encode (.addroundkey k)).cmd = k := kField_commandWord _ _ _ _
    have hk : k.toNat ≤ 10 := of_decide_eq_true hwf
    have h := DecodesTo.addroundkey (opField_encode (.addroundkey k)) (hkField.symm ▸ hk)
    rwa [hkField] at h
  | keyexpand => exact .keyexpand (opField_encode _)
  | encrypt => exact .encrypt (opField_encode _)
  | lds d => simpa [encode] using DecodesTo.lds (opField_encode (.lds d))
  | ldk d => simpa [encode] using DecodesTo.ldk (opField_encode (.ldk d))

/-- Settles O2: the encoder writes the operation code of the instruction's row and every operand in its own field, and
the decoder reads them there. -/
theorem decodeOfEncodeIsInstruction : Obligations.DecodeOfEncodeIsInstruction :=
  fun _ hwf => (decodesTo_encode hwf).decode_eq

end Sys2Proof.Proofs
end

section
/-!
PROOFS of the family 30_encoding.md, second part: ignored fields (R77), what every command word decodes to and how many
words are legal (R75, R76, R79).
-/

namespace Sys2Proof.Proofs

open Sys2Proof Sys2Proof.Machine Sys2Proof.Safety

/-! ### Command words by their fields (R71) -/

theorem append_eq_commandWord (op k : BitVec 4) (a b : Byte) : op ++ k ++ a ++ b = commandWord op k a b := by
  unfold commandWord
  refine BitVec.eq_of_getLsbD_eq fun i hi => ?_
  simp only [BitVec.getLsbD_append, BitVec.getLsbD_or, BitVec.getLsbD_shiftLeft, BitVec.getLsbD_setWidth]
  interval_cases i <;> simp

theorem commandWord_and_commandWord (op k op' k' : BitVec 4) (a b a' b' : Byte) :
    commandWord op k a b &&& commandWord op' k' a' b' = commandWord (op &&& op') (k &&& k') (a &&& a') (b &&& b') := by
  simp only [← append_eq_commandWord]
  exact BitVec.and_append.trans (by rw [BitVec.and_append, BitVec.and_append])

/-- Masking a command word masks each of its fields. -/
theorem and_commandWord (cmd : BitVec 24) (op k : BitVec 4) (a b : Byte) :
    cmd &&& commandWord op k a b =
      commandWord (opField cmd &&& op) (kField cmd &&& k) (aField cmd &&& a) (bField cmd &&& b) := by
  rw [← commandWord_and_commandWord, commandWord_fields]

/-! ### The canonical command, one equation per format (R72, R77) -/

section
variable {c : Command}

theorem canonicalOf_gfmul (hop : opField c.cmd = 0x0#4) :
    canonicalOf c = ⟨commandWord 0x0#4 0x0#4 (aField c.cmd) (bField c.cmd), 0#128⟩ := by
  have hmask : 0xF0FFFF#24 = commandWord (.allOnes 4) 0x0#4 (.allOnes 8) (.allOnes 8) := by decide
  rw [canonicalOf, if_pos hop, hmask, and_commandWord, hop]
  simp only [BitVec.and_allOnes, BitVec.and_zero]

theorem canonicalOf_sbox (hop : opField c.cmd = 0x1#4) :
    canonicalOf c = ⟨commandWord 0x1#4 0x0#4 (aField c.cmd) 0x00#8, 0#128⟩ := by
  have hmask : 0xF0FF00#24 = commandWord (.allOnes 4) 0x0#4 (.allOnes 8) 0x00#8 := by decide
  rw [canonicalOf, if_neg (by simp [hop]), if_pos hop, hmask, and_commandWord, hop]
  simp only [BitVec.and_allOnes, BitVec.and_zero]

theorem canonicalOf_addroundkey (hop : opField c.cmd = 0x5#4) :
    canonicalOf c = ⟨commandWord 0x5#4 (kField c.cmd) 0x00#8 0x00#8, 0#128⟩ := by
  have hmask : 0xFF0000#24 = commandWord (.allOnes 4) (.allOnes 4) 0x00#8 0x00#8 := by decide
  rw [canonicalOf, if_neg (by simp [hop]), if_neg (by simp [hop]), if_pos hop, hmask, and_commandWord, hop]
  simp only [BitVec.and_allOnes, BitVec.and_zero]

/-- Where the format reads no field of the word beside `op`, the masked word is the operation code alone. -/
theorem and_opMask (cmd : BitVec 24) : cmd &&& 0xF00000#24 = commandWord (opField cmd) 0x0#4 0x00#8 0x00#8 := by
  have hmask : 0xF00000#24 = commandWord (.allOnes 4) 0x0#4 0x00#8 0x00#8 := by decide
  rw [hmask, and_commandWord]
  simp only [BitVec.and_allOnes, BitVec.and_zero]

theorem canonicalOf_load {op : BitVec 4} (hop : opField c.cmd = op) (h : op = 0x8#4 ∨ op = 0x9#4) :
    canonicalOf c = ⟨commandWord op 0x0#4 0x00#8 0x00#8, c.din⟩ := by
  have hword : c.cmd &&& 0xF00000#24 = commandWord op 0x0#4 0x00#8 0x00#8 := hop ▸ and_opMask c.cmd
  rw [canonicalOf, hop, hword]
  obtain rfl | rfl := h <;> rfl

theorem canonicalOf_noOperand {op : BitVec 4} (hop : opField c.cmd = op)
    (h : op ≠ 0x0#4 ∧ op ≠ 0x1#4 ∧ op ≠ 0x5#4 ∧ op ≠ 0x8#4 ∧ op ≠ 0x9#4) :
    canonicalOf c = ⟨commandWord op 0x0#4 0x00#8 0x00#8, 0#128⟩ := by
  subst hop
  obtain ⟨h0, h1, h5, h8, h9⟩ := h
  rw [canonicalOf, if_neg h0, if_neg h1, if_neg h5, if_neg (not_or.mpr ⟨h8, h9⟩), and_opMask]

/-! ### Ignored fields have no effect (R77) -/

theorem encode_of_decode_eq_ok {i : Instr} (h : decode c = .ok i) : encode i = canonicalOf c := by
  cases decode_eq_iff.mp h with
  | gfmul hop => exact (canonicalOf_gfmul hop).symm
  | sbox hop => exact (canonicalOf_sbox hop).symm
  | addroundkey hop => exact (canonicalOf_addroundkey hop).symm
  | lds hop =>
    rw [canonicalOf_load hop (.inl rfl), encode, blockOperand, flatOfBlock_blockOfFlat]
    rfl
  | ldk hop =>
    rw [canonicalOf_load hop (.inr rfl), encode, blockOperand, flatOfBlock_blockOfFlat]
    rfl
  | _ hop => exact (canonicalOf_noOperand hop (by decide)).symm

/-- What makes a command illegal, `op` and after it `k`, is kept in the canonical command. -/
theorem decode_canonicalOf_of_error {e : DecodeError} (h : decode c = .error e) : decode (canonicalOf c) = .error e := by
  cases decode_eq_iff.mp h with
  | indexOutOfRange hop hk =>
    rw [canonicalOf_addroundkey hop]
    simpa using (DecodesTo.indexOutOfRange (c := ⟨commandWord 0x5#4 (kField c.cmd) 0x00#8 0x00#8, 0#128⟩)
      (opField_commandWord ..) (by rwa [kField_commandWord])).decode_eq
  | reserved hop =>
    have hne : ∀ n : BitVec 4, n.toNat < 10 → opField c.cmd ≠ n := fun n => ne_of_ten_le hop
    rw [canonicalOf_noOperand rfl
      ⟨hne _ (by decide), hne _ (by decide), hne _ (by decide), hne _ (by decide), hne _ (by decide)⟩]
    simpa using (DecodesTo.reserved (c := ⟨commandWord (opField c.cmd) 0x0#4 0x00#8 0x00#8, 0#128⟩)
      (by rwa [opField_commandWord])).decode_eq

/-- A command decodes as its canonical command does: a decoded one is the canonical command of its instruction. -/
theorem decode_canonicalOf (c : Command) : decode (canonicalOf c) = decode c := by
  cases h : decode c with
  | ok i =>
    rw [← encode_of_decode_eq_ok h]
    exact decodeOfEncodeIsInstruction i (wf_of_decode_eq_ok h)
  | error e => exact decode_canonicalOf_of_error h

end

theorem decode_eq_of_canonicalOf_eq {c d : Command} (h : canonicalOf c = canonicalOf d) : decode c = decode d := by
  rw [← decode_canonicalOf c, h, decode_canonicalOf d]

/-- Performing a command depends on what it decodes to alone. -/
theorem runCommand_congr {c d : Command} (h : decode c = decode d) (s : State) : runCommand c s = runCommand d s := by
  rw [runCommand, h, runCommand]

theorem runCommand_of_ok {c : Command} {i : Instr} (h : decode c = .ok i) (s : State) : runCommand c s = exec i s := by
  rw [runCommand, h]

theorem runCommand_of_error {c : Command} {e : DecodeError} (h : decode c = .error e) (s : State) :
    runCommand c s = .next (raiseInvalidInput s) := by
  rw [runCommand, h]

theorem decode_zeroWord (din : BitVec 128) : decode ⟨0x000000#24, din⟩ = .ok (.gfmul 0x00#8 0x00#8) := by
  have hop : opField 0x000000#24 = 0x0#4 := by decide
  simpa [aField, bField] using (DecodesTo.gfmul (c := ⟨0x000000#24, din⟩) hop).decode_eq

/-- Settles O4: the canonical command fixes what a command decodes to, and with it what it does. -/
theorem ignoredFieldsHaveNoEffect : Obligations.IgnoredFieldsHaveNoEffect := by
  refine ⟨fun c d s h => ?_, fun c i => encode_of_decode_eq_ok, fun din s => ⟨decode_zeroWord din, ?_⟩⟩
  · have hdec : decode c = decode d := decode_eq_of_canonicalOf_eq h
    exact ⟨hdec, runCommand_congr hdec s⟩
  · have hzero : gfmul 0x00#8 0x00#8 = 0x00#8 := by decide
    rw [runCommand_of_ok (decode_zeroWord din), exec_gfmul, hzero, writeRes]

/-! ### The illegal words (R75, R76) -/

/-- The numbers of R75 and R76 are those of the fields: an operation code from 0xA on, or 0x5 with an index from 11 on. -/
theorem illegalWord_iff (cmd : BitVec 24) :
    IllegalWord cmd ↔ 10 ≤ (opField cmd).toNat ∨ (opField cmd = 0x5#4 ∧ 10 < (kField cmd).toNat) := by
  have hop : (opField cmd).toNat = cmd.toNat / 2 ^ 20 % 16 := by simp [opField, Nat.shiftRight_eq_div_pow]
  have hk : (kField cmd).toNat = cmd.toNat / 2 ^ 16 % 16 := by simp [kField, Nat.shiftRight_eq_div_pow]
  have h5 : opField cmd = 0x5#4 ↔ (opField cmd).toNat = 5 := BitVec.toNat_inj.symm
  have hlt : cmd.toNat < 2 ^ 24 := cmd.isLt
  rw [IllegalWord, h5, hop, hk]
  omega

theorem rejected_iff_exists_error (c : Command) : rejected c = true ↔ ∃ e, decode c = .error e := by
  unfold rejected
  cases decode c <;> simp

/-- The decoder rejects exactly the words of R75 and R76. -/
theorem rejected_iff_illegalWord (c : Command) : rejected c = true ↔ IllegalWord c.cmd := by
  rw [rejected_iff_exists_error, illegalWord_iff]
  constructor
  · rintro ⟨e, he⟩
    cases decode_eq_iff.mp he with
    | indexOutOfRange hop hk => exact .inr ⟨hop, hk⟩
    | reserved hop => exact .inl hop
  · rintro (hop | ⟨hop, hk⟩)
    · exact ⟨_, (DecodesTo.reserved hop).decode_eq⟩
    · exact ⟨_, (DecodesTo.indexOutOfRange hop hk).decode_eq⟩

/-- Settles O5: the decoder rejects the word, and the exception is taken. -/
theorem illegalCommandSetsErrOnly : Obligations.IllegalCommandSetsErrOnly := by
  intro s c hill
  obtain ⟨e, he⟩ := (rejected_iff_exists_error c).mp ((rejected_iff_illegalWord c).mpr hill)
  exact runCommand_of_error he s

/-! ### What every command word decodes to, and how many are legal (R79) -/

theorem card_Ico_union_Ico {a b c d : ℕ} (h : b ≤ c) : (Finset.Ico a b ∪ Finset.Ico c d).card = b - a + (d - c) := by
  have hdisj : Disjoint (Finset.Ico a b) (Finset.Ico c d) :=
    Finset.disjoint_left.mpr fun w => by simp only [Finset.mem_Ico]; omega
  rw [Finset.card_union_of_disjoint hdisj, Nat.card_Ico, Nat.card_Ico]

/-- The rejected words are two intervals, those of R75 and R76. -/
theorem card_rejected :
    ((Finset.range (2 ^ 24)).filter fun w => rejected ⟨BitVec.ofNat 24 w, 0#128⟩ = true).card = 6619136 := by
  have hset : ((Finset.range (2 ^ 24)).filter fun w => rejected ⟨BitVec.ofNat 24 w, 0#128⟩ = true) =
      Finset.Ico 0x5B0000 0x600000 ∪ Finset.Ico 0xA00000 0x1000000 := by
    ext w
    simp only [Finset.mem_filter, Finset.mem_range, rejected_iff_illegalWord, IllegalWord, BitVec.toNat_ofNat,
      Finset.mem_union, Finset.mem_Ico]
    omega
  rw [hset, card_Ico_union_Ico (by norm_num)]

/-- The legal words are the two intervals between them. -/
theorem card_legal :
    ((Finset.range (2 ^ 24)).filter fun w => rejected ⟨BitVec.ofNat 24 w, 0#128⟩ = false).card = 10158080 := by
  have hset : ((Finset.range (2 ^ 24)).filter fun w => rejected ⟨BitVec.ofNat 24 w, 0#128⟩ = false) =
      Finset.Ico 0x000000 0x5B0000 ∪ Finset.Ico 0x600000 0xA00000 := by
    ext w
    simp only [Finset.mem_filter, Finset.mem_range, ← Bool.not_eq_true, rejected_iff_illegalWord, IllegalWord,
      BitVec.toNat_ofNat, Finset.mem_union, Finset.mem_Ico]
    omega
  rw [hset, card_Ico_union_Ico (by norm_num)]

/-- Settles O3: the row of R79 is found by the operation code, and the words the decoder rejects are counted as two
intervals. -/
theorem decoderMapsEveryWord : Obligations.DecoderMapsEveryWord := by
  refine ⟨fun op k a b din => ?_, card_legal, card_rejected⟩
  rw [append_eq_commandWord]
  generalize hc : (⟨commandWord op k a b, din⟩ : Command) = c
  obtain ⟨hop, hk, ha, hb, hdin⟩ : opField c.cmd = op ∧ kField c.cmd = k ∧ aField c.cmd = a ∧ bField c.cmd = b ∧
      c.din = din := by simp [← hc]
  subst op k a b din
  obtain ⟨r, hr⟩ := exists_decodesTo c
  rw [hr.decode_eq]
  cases hr with
  | addroundkey hop hk =>
    rw [hop]
    exact (if_pos hk).symm
  | indexOutOfRange hop hk =>
    rw [hop]
    exact (if_neg (not_le.mpr hk)).symm
  | reserved hop =>
    obtain ⟨n, hn⟩ := Nat.exists_eq_add_of_le' hop
    rw [hn]
    rfl
  | _ hop =>
    rw [hop]
    rfl

end Sys2Proof.Proofs
end

section
/-!
PROOFS of the family 30_encoding.md, third part: the step that completes a command (R194), the pseudo-instructions
(R81), and the command words and assembler lines the spec writes out (R80).
-/

namespace Sys2Proof.Proofs

open Sys2Proof Sys2Proof.Machine Sys2Proof.Safety

/-! ### The step of a busy block (R194) -/

/-- The host waits or does nothing: the sampled command is performed on the block made idle, the wait taken. -/
theorem step_of_busy {s : State} {c : Command} (hbusy : s.busy = some c) (hhost : LetsComplete s) :
    step s = runCommand c { s with busy := none, host := s.host.tail } := by
  have hstep : step s = busyStep c s := by simp only [step, hostStep, hbusy]
  rw [hstep]
  cases hs : s.host with
  | nil => simp only [busyStep, hs, becomeIdle, List.tail_nil]
  | cons action rest =>
    obtain rfl : action = .wait := by simpa [LetsComplete, hs] using hhost
    simp only [busyStep, hs, becomeIdle, setHost, List.tail_cons]

/-- The command `withFetchWord` presents is performed by the next step. -/
theorem step_withFetchWord (s : State) (nbits w : Nat) :
    step (s.withFetchWord nbits w) = runCommand (commandOfTableWord nbits w) { s with busy := none } :=
  step_of_busy rfl (.inr rfl)

theorem decode_of_decodeTableWord {nbits w : Nat} {i : Instr} (h : decodeTableWord nbits w = some i) :
    decode (commandOfTableWord nbits w) = .ok i := by
  unfold decodeTableWord at h
  split at h
  · cases h
    assumption
  · cases h

/-- Settles O40: the step performs the sampled command, which runs what it decodes to or raises the exception. -/
theorem stepRunsDecodedInstruction : Obligations.StepRunsDecodedInstruction := by
  refine ⟨fun s c i hbusy hdec hhost => ?_, fun s c hbusy hrej hhost => ?_, fun s nbits w i h => ?_⟩
  · rw [step_of_busy hbusy hhost, runCommand_of_ok hdec]
  · obtain ⟨e, he⟩ := (rejected_iff_exists_error c).mp hrej
    rw [step_of_busy hbusy hhost, runCommand_of_error he, raiseInvalidInput, setErr]
  · rw [step_withFetchWord, runCommand_of_ok (decode_of_decodeTableWord h)]

/-! ### The pseudo-instructions (R81) -/

theorem runInstrs_cons {i : Instr} {s t : State} (h : exec i s = .next t) (is : List Instr) :
    runInstrs (i :: is) s = runInstrs is t := by
  rw [runInstrs, h]

/-- Rounds 1..9 of the driver (R150). -/
theorem roundStep_middle {r : Fin 11} (h : 1 ≤ r.val ∧ r.val ≤ 9) (M : Block) (W : Bank) :
    roundStep r M W = addRoundKey (mixColumns (shiftRows (subBytes M))) (bankAt W r) := by
  rw [roundStep, if_neg (by omega), if_pos h.2]

/-- Round 10 of the driver leaves `mix_columns` out (R152). -/
theorem roundStep_final (M : Block) (W : Bank) :
    roundStep 10 M W = addRoundKey (shiftRows (subBytes M)) (bankAt W 10) := rfl

theorem runInstrs_round {r : BitVec 4} (h : 1 ≤ r.toNat ∧ r.toNat ≤ 9) (s : State) :
    runInstrs (expandPseudo (.round r)) s =
      .next (writeS s (roundStep ⟨r.toNat, Nat.lt_of_le_of_lt h.2 (by decide)⟩ s.S s.RK)) := by
  rw [roundStep_middle h, expandPseudo, runInstrs_cons (exec_subbytes s), runInstrs_cons (exec_shiftrows _),
    runInstrs_cons (exec_mixcolumns _), runInstrs_cons (exec_addroundkey_of_le (by omega) _)]
  rfl

theorem runInstrs_finalround (s : State) :
    runInstrs (expandPseudo .finalround) s = .next (writeS s (roundStep 10 s.S s.RK)) := by
  rw [roundStep_final, expandPseudo, runInstrs_cons (exec_subbytes s), runInstrs_cons (exec_shiftrows _),
    runInstrs_cons (exec_addroundkey_of_le (by decide) _)]
  rfl

/-- Once the second operand is used up, the loop leaves the accumulator as it is. -/
theorem gfmulLoop_zero_right (n : Nat) (p x : Byte) : gfmulLoop n p x 0x00#8 = p := by
  induction n generalizing x with
  | zero => rfl
  | succ n ih => exact ih (xtime x)

/-- The second operand 0x02 has bit 1 alone: the loop shifts the first operand once and accumulates it once. -/
theorem gfmul_two (a : Byte) : gfmul a 0x02#8 = timesX a := by
  calc gfmul a 0x02#8 = gfmulLoop 6 (0x00#8 ^^^ xtime a) (xtime (xtime a)) 0x00#8 := rfl
    _ = 0x00#8 ^^^ xtime a := gfmulLoop_zero_right ..
    _ = timesX a := BitVec.zero_xor

/-- Settles O51: each pseudo-instruction is its expansion run command by command. -/
theorem pseudoInstructionsAreRounds : Obligations.PseudoInstructionsAreRounds := by
  refine ⟨fun s r h => runInstrs_round h s, runInstrs_finalround, fun s a => ?_⟩
  rw [expandPseudo, runInstrs_cons (exec_gfmul a 0x02#8 s), gfmul_two]
  rfl

/-! ### Words and lines the spec writes out -/

/-- Settles O1: the decoder is run on each of the sixteen words. -/
theorem writtenWordsDecode : Obligations.WrittenWordsDecode := by
  unfold Obligations.WrittenWordsDecode
  decide +kernel

/-- Settles O52: the assembler is run on each of the six lines. -/
theorem assemblerGivesCanonicalWords : Obligations.AssemblerGivesCanonicalWords := by
  unfold Obligations.AssemblerGivesCanonicalWords
  decide +kernel

end Sys2Proof.Proofs
end

section
/-!
PROOFS of the family 40_gf256_multiplier.md, first part: words as sums of their bits, and the laws of the field product
(R101, R102).
-/

namespace Sys2Proof.Proofs

open Sys2Proof Sys2Proof.Machine

/-! ### Maps that exclusive or goes through -/

/-- Addition of the field is exclusive or (R100); `f` keeps it. -/
def IsXorHom {v w : Nat} (f : BitVec v → BitVec w) : Prop := ∀ x y, f (x ^^^ y) = f x ^^^ f y

section
variable {u v w : Nat}

theorem IsXorHom.map_zero {f : BitVec v → BitVec w} (hf : IsXorHom f) : f 0 = 0 := by
  have h : f 0 = f 0 ^^^ f 0 := by simpa using hf 0 0
  simpa using h

theorem IsXorHom.comp {g : BitVec v → BitVec w} {f : BitVec u → BitVec v} (hg : IsXorHom g) (hf : IsXorHom f) :
    IsXorHom (g ∘ f) := fun x y => by
  simp only [Function.comp_apply, hf x y, hg (f x) (f y)]

theorem IsXorHom.iterate {f : BitVec w → BitVec w} (hf : IsXorHom f) (n : Nat) : IsXorHom f^[n] := by
  induction n with
  | zero => exact fun _ _ => rfl
  | succ n ih => exact ih.comp hf

theorem IsXorHom.foldl {ι : Type} {f : BitVec w → ι → BitVec w} (hf : ∀ i, IsXorHom (f · i)) (l : List ι) :
    IsXorHom (fun p => l.foldl f p) := by
  induction l with
  | nil => exact fun _ _ => rfl
  | cons i l ih => exact ih.comp (hf i)

theorem isXorHom_setWidth : IsXorHom (BitVec.setWidth w : BitVec v → BitVec w) :=
  fun _ _ => BitVec.setWidth_xor

theorem isXorHom_shiftLeft (n : Nat) : IsXorHom (fun p : BitVec w => p <<< n) :=
  fun x y => BitVec.shiftLeft_xor_distrib x y n

/-- Exclusive-oring a constant in where one bit is set, the step of a reduction. -/
theorem isXorHom_reduceBit (i : Nat) (c : BitVec w) : IsXorHom (fun p => if p.getLsbD i then p ^^^ c else p) := by
  intro x y
  cases hx : x.getLsbD i <;> cases hy : y.getLsbD i
  · simp [hx, hy]
  · simp [hx, hy, BitVec.xor_assoc]
  · simp [hx, hy]; ac_rfl
  · have hc : (x ^^^ c) ^^^ (y ^^^ c) = (x ^^^ y) ^^^ (c ^^^ c) := by ac_rfl
    simp [hx, hy, hc]

/-- A word is the exclusive or of the single bits it has set. -/
theorem xor_induction {P : BitVec w → Prop} (zero : P 0) (xor : ∀ x y, P x → P y → P (x ^^^ y))
    (bit : ∀ i : Fin w, P (BitVec.twoPow w i)) (x : BitVec w) : P x := by
  suffices h : ∀ n, ∀ y : BitVec w, (∀ j, n ≤ j → y.getLsbD j = false) → P y from
    h w x fun j hj => BitVec.getLsbD_of_ge x j hj
  intro n
  induction n with
  | zero =>
    intro y hy
    have hzero : y = 0 := BitVec.eq_of_getLsbD_eq fun j _ => by simpa using hy j (Nat.zero_le j)
    rwa [hzero]
  | succ n ih =>
    intro y hy
    by_cases hn : y.getLsbD n = true
    · have hw : n < w := BitVec.lt_of_getLsbD hn
      have hsum : y = (y ^^^ BitVec.twoPow w n) ^^^ BitVec.twoPow w n := by simp
      rw [hsum]
      refine xor _ _ (ih _ fun j hj => ?_) (bit ⟨n, hw⟩)
      rcases Nat.eq_or_lt_of_le hj with rfl | hlt
      · simp [hn, hw]
      · simp [hy j hlt, Nat.ne_of_lt hlt]
    · refine ih y fun j hj => ?_
      rcases Nat.eq_or_lt_of_le hj with rfl | hlt
      · simpa using hn
      · exact hy j hlt

/-- Two such maps are equal when they agree on the single bits. -/
theorem IsXorHom.ext {f g : BitVec v → BitVec w} (hf : IsXorHom f) (hg : IsXorHom g)
    (h : ∀ i : Fin v, f (BitVec.twoPow v i) = g (BitVec.twoPow v i)) (x : BitVec v) : f x = g x :=
  xor_induction (P := fun x => f x = g x) (hf.map_zero.trans hg.map_zero.symm)
    (fun x y hx hy => by rw [hf, hg, hx, hy]) h x

end

/-! ### The laws of the product (R102) -/

theorem isXorHom_xtime : IsXorHom xtime := xtime_xor

theorem gfmulLoop_xor_left (n : Nat) (p q x x' y : Byte) :
    gfmulLoop n (p ^^^ q) (x ^^^ x') y = gfmulLoop n p x y ^^^ gfmulLoop n q x' y := by
  induction n generalizing p q x x' y with
  | zero => rfl
  | succ n ih =>
    simp only [gfmulLoop, xtime_xor, ← ih]
    congr 1
    split
    · ac_rfl
    · rfl

theorem isXorHom_gfmul_left (b : Byte) : IsXorHom (gfmul · b) := fun x x' => gfmulLoop_xor_left 8 0 0 x x' b

/-- A map that keeps exclusive or and doubling goes through the loop, which is built from these two alone. -/
theorem map_gfmulLoop {f : Byte → Byte} (hf : IsXorHom f) (hx : ∀ x, f (xtime x) = xtime (f x)) (n : Nat)
    (p x y : Byte) : f (gfmulLoop n p x y) = gfmulLoop n (f p) (f x) y := by
  induction n generalizing p x y with
  | zero => rfl
  | succ n ih =>
    simp only [gfmulLoop, ih, hx]
    congr 1
    split
    · exact hf p x
    · rfl

theorem map_gfmul {f : Byte → Byte} (hf : IsXorHom f) (hx : ∀ x, f (xtime x) = xtime (f x)) (a b : Byte) :
    f (gfmul a b) = gfmul (f a) b := by
  have h := map_gfmulLoop hf hx 8 0 a b
  rwa [hf.map_zero] at h

theorem gfmul_xtime_left (a b : Byte) : gfmul (xtime a) b = xtime (gfmul a b) :=
  (map_gfmul isXorHom_xtime (fun _ => rfl) a b).symm

/-- Multiplying by `c` keeps exclusive or and doubling, so it goes through the product with `b`. -/
theorem gfmul_right_comm (a b c : Byte) : gfmul (gfmul a b) c = gfmul (gfmul a c) b :=
  map_gfmul (isXorHom_gfmul_left c) (gfmul_xtime_left · c) a b

@[simp] theorem gfmul_one_left (b : Byte) : gfmul 0x01#8 b = b := by
  revert b
  decide +kernel

/-- Law 2: both sides are `gfmul(0x01, a)` times `b`, in the two orders. -/
theorem gfmul_comm (a b : Byte) : gfmul a b = gfmul b a := by
  simpa only [gfmul_one_left] using gfmul_right_comm 0x01#8 a b

/-- Law 3. -/
theorem gfmul_xor_right (a b c : Byte) : gfmul a (b ^^^ c) = gfmul a b ^^^ gfmul a c := by
  rw [gfmul_comm a, gfmul_comm a b, gfmul_comm a c]
  exact isXorHom_gfmul_left a b c

@[simp] theorem gfmul_zero_right (a : Byte) : gfmul a 0x00#8 = 0x00#8 := gfmulLoop_zero_right ..

@[simp] theorem gfmul_zero_left (a : Byte) : gfmul 0x00#8 a = 0x00#8 := (gfmul_comm ..).trans (gfmul_zero_right a)

@[simp] theorem gfmul_one_right (a : Byte) : gfmul a 0x01#8 = a := (gfmul_comm ..).trans (gfmul_one_left a)

/-- Law 7, first half. -/
theorem gfmul_assoc (a b c : Byte) : gfmul (gfmul a b) c = gfmul a (gfmul b c) :=
  calc gfmul (gfmul a b) c = gfmul (gfmul b a) c := by rw [gfmul_comm a b]
    _ = gfmul (gfmul b c) a := gfmul_right_comm b a c
    _ = gfmul a (gfmul b c) := gfmul_comm ..

/-- The table of R115 holds an inverse of every non-zero byte. -/
theorem gfmul_inverseTable {a : Byte} (ha : a ≠ 0x00#8) : gfmul a (tableAt inverseTable a) = 0x01#8 := by
  revert a
  decide +kernel

/-- A byte has at most one inverse, because the product is commutative and associative. -/
theorem eq_of_gfmul_eq_one {a i j : Byte} (hi : gfmul a i = 0x01#8) (hj : gfmul a j = 0x01#8) : i = j :=
  calc i = gfmul i (gfmul a j) := by rw [hj, gfmul_one_right]
    _ = gfmul (gfmul a i) j := by rw [← gfmul_assoc, gfmul_comm i a]
    _ = j := by rw [hi, gfmul_one_left]

/-- Law 7, second half. -/
theorem existsUnique_gfmul_eq_one {a : Byte} (ha : a ≠ 0x00#8) : ∃! i : Byte, gfmul a i = 0x01#8 :=
  ⟨_, gfmul_inverseTable ha, fun _ hj => eq_of_gfmul_eq_one hj (gfmul_inverseTable ha)⟩

/-- Settles O10: commutativity and associativity come from the maps that go through the loop, inverses from the table
of R115. -/
theorem fieldLaws : Obligations.FieldLaws :=
  ⟨gfmul_comm, gfmul_xor_right, fun a => ⟨gfmul_zero_right a, gfmul_zero_left a⟩,
    fun a => ⟨gfmul_one_right a, gfmul_one_left a⟩, rfl, gfmul_assoc, fun _ => existsUnique_gfmul_eq_one⟩

end Sys2Proof.Proofs
end

section
/-!
PROOFS of the family 40_gf256_multiplier.md, second part: the loop against the closed form and the reduced polynomial
product (R103), and the command `GFMUL` (R105).
-/

namespace Sys2Proof.Proofs

open Sys2Proof Sys2Proof.Machine

/-! ### The closed form (R103) -/

theorem xtime_eq_timesX : xtime = timesX := rfl

/-- After `n` iterations the accumulator has taken in `xtime^i(x)` for the set bits `i < n` of `y`. -/
theorem gfmulLoop_eq_foldl (n : Nat) (p x y : Byte) :
    gfmulLoop n p x y =
      (List.range n).foldl (fun acc i => if y.getLsbD i then acc ^^^ timesX^[i] x else acc) p := by
  induction n generalizing p x y with
  | zero => rfl
  | succ n ih =>
    rw [gfmulLoop, ih, List.range_succ_eq_map, List.foldl_cons, List.foldl_map]
    simp only [BitVec.getLsbD_ushiftRight, Nat.add_comm 1, xtime_eq_timesX, Function.iterate_succ_apply,
      Function.iterate_zero_apply]

theorem gfmul_eq_productClosedForm (a b : Byte) : gfmul a b = productClosedForm a b := gfmulLoop_eq_foldl 8 0 a b

/-! ### The reduced polynomial product (R103) -/

theorem isXorHom_reduceByPoly : IsXorHom reduceByPoly :=
  isXorHom_setWidth.comp (IsXorHom.foldl (fun i => isXorHom_reduceBit (i + 8) _) [6, 5, 4, 3, 2, 1, 0])

/-- Reducing `a` times `x^i` is doubling `a` in the field `i` times. -/
theorem reduceByPoly_shiftLeft {i : Nat} (hi : i < 8) (a : Byte) :
    reduceByPoly (a.setWidth 15 <<< i) = timesX^[i] a := by
  have hl : IsXorHom (fun a : Byte => reduceByPoly (a.setWidth 15 <<< i)) :=
    isXorHom_reduceByPoly.comp ((isXorHom_shiftLeft i).comp isXorHom_setWidth)
  have hbits : ∀ k j : Fin 8,
      reduceByPoly ((BitVec.twoPow 8 j).setWidth 15 <<< k.val) = timesX^[k.val] (BitVec.twoPow 8 j) := by
    decide +kernel
  exact hl.ext (isXorHom_xtime.iterate i) (hbits ⟨i, hi⟩) a

/-- The reduction goes through the sum over the set bits of `b`. -/
theorem reduceByPoly_carrylessProduct (a b : Byte) :
    reduceByPoly (carrylessProduct a b) = productClosedForm a b := by
  unfold carrylessProduct productClosedForm
  rw [← List.foldl_hom reduceByPoly
    (g₂ := fun acc i => if b.getLsbD i then acc ^^^ reduceByPoly (a.setWidth 15 <<< i) else acc)]
  · rw [isXorHom_reduceByPoly.map_zero]
    refine List.foldl_ext _ _ _ fun acc i hi => ?_
    rw [reduceByPoly_shiftLeft (List.mem_range.mp hi)]
  · intro p i
    split
    · exact (isXorHom_reduceByPoly _ _).symm
    · rfl

/-- Settles O9: the loop is the closed form, and the reduction takes the carry-less product to it. -/
theorem gfmulIsReducedPolynomialProduct : Obligations.GfmulIsReducedPolynomialProduct :=
  ⟨gfmul_eq_productClosedForm,
    fun a b => (gfmul_eq_productClosedForm a b).trans (reduceByPoly_carrylessProduct a b).symm, gfmul_two⟩

/-! ### The command `GFMUL` (R105) -/

theorem exec_gfmul_comm (a b : Byte) (s : State) : exec (.gfmul a b) s = exec (.gfmul b a) s := by
  rw [exec_gfmul, exec_gfmul, gfmul_comm]

/-- Settles O8: the command writes `RES` alone, and the product has the laws its corner cases name. -/
theorem gfmulWritesProduct : Obligations.GfmulWritesProduct :=
  ⟨exec_gfmul, exec_gfmul_comm, fun a => ⟨gfmul_zero_right a, gfmul_zero_left a, gfmul_one_right a⟩, by decide⟩

end Sys2Proof.Proofs
end

section
/-!
PROOFS of the family 41_aes_sbox_gen.md: the inverse search (R110, R115), the affine transform (R111), the substitution
box (R113, R114) and the command `SBOX` (R116).
-/

namespace Sys2Proof.Proofs

open Sys2Proof Sys2Proof.Machine

/-! ### The inverse (R110, R115) -/

theorem ne_zero_of_gfmul_eq_one {v i : Byte} (h : gfmul v i = 0x01#8) : i ≠ 0x00#8 := by
  rintro rfl
  rw [gfmul_zero_right] at h
  exact absurd h (by decide)

/-- The search down from `n` meets every inverse that is at most `n`. -/
theorem gfmul_searchInverse {v i : Byte} {n : Nat} (hi : gfmul v i = 0x01#8) (hn : i.toNat ≤ n) :
    gfmul v (searchInverse v n) = 0x01#8 := by
  induction n with
  | zero => exact absurd (BitVec.eq_of_toNat_eq (Nat.le_zero.mp hn)) (ne_zero_of_gfmul_eq_one hi)
  | succ n ih =>
    unfold searchInverse
    split
    case isTrue h => exact h
    case isFalse h =>
      have hne : i.toNat ≠ n + 1 := fun heq => h (by rwa [← heq, BitVec.ofNat_toNat, BitVec.setWidth_eq])
      exact ih (by omega)

@[simp] theorem gfinv_zero : gfinv 0x00#8 = 0x00#8 := rfl

theorem gfmul_gfinv {v : Byte} (hv : v ≠ 0x00#8) : gfmul v (gfinv v) = 0x01#8 := by
  rw [gfinv, if_neg hv]
  exact gfmul_searchInverse (gfmul_inverseTable hv) (Nat.le_of_lt_succ (BitVec.isLt _))

/-- The other operand of a product 0x01 is the inverse. -/
theorem eq_gfinv_of_gfmul_eq_one {v i : Byte} (hi : gfmul v i = 0x01#8) : i = gfinv v :=
  have hv : v ≠ 0x00#8 := ne_zero_of_gfmul_eq_one ((gfmul_comm i v).trans hi)
  eq_of_gfmul_eq_one hi (gfmul_gfinv hv)

@[simp] theorem gfinv_one : gfinv 0x01#8 = 0x01#8 := (eq_gfinv_of_gfmul_eq_one (gfmul_one_left 0x01#8)).symm

/-- A non-zero `v` is the match for its own inverse, because the product is commutative. -/
theorem gfinv_involutive : Function.Involutive gfinv := by
  intro v
  rcases eq_or_ne v 0x00#8 with rfl | hv
  · rw [gfinv_zero, gfinv_zero]
  · exact (eq_gfinv_of_gfmul_eq_one ((gfmul_comm (gfinv v) v).trans (gfmul_gfinv hv))).symm

/-- Settles O11: the search finds an inverse, and a byte has at most one. -/
theorem inverseIsTheUniqueMatch : Obligations.InverseIsTheUniqueMatch :=
  ⟨gfinv_zero, gfinv_one, fun _ hv => ⟨gfmul_gfinv hv, fun _ => eq_gfinv_of_gfmul_eq_one⟩, gfinv_involutive⟩

/-- The entry for a non-zero byte is an inverse of it, so the one that `gfinv` gives. -/
theorem gfinv_eq_inverseTable (v : Byte) : gfinv v = tableAt inverseTable v := by
  rcases eq_or_ne v 0x00#8 with rfl | hv
  · decide
  · exact (eq_gfinv_of_gfmul_eq_one (gfmul_inverseTable hv)).symm

/-- Settles O12: the table's own products are 0x01, and a byte has at most one inverse. -/
theorem inverseAgreesWithTable : Obligations.InverseAgreesWithTable := gfinv_eq_inverseTable

/-! ### The affine transform (R111) -/

theorem getLsbD_bitAt (bit : Bool) (i : Nat) {j : Nat} (hj : j < 8) :
    (bitAt bit i).getLsbD j = (bit && decide (j = i)) := by
  unfold bitAt
  rcases lt_trichotomy j i with h | rfl | h
  · simp [h, h.ne]
  · simp [hj]
  · simp [h.ne', Nat.sub_ne_zero_of_lt h]

/-- Of the eight bits assembled, one stands at each place. -/
theorem getLsbD_affine (v : Byte) (i : Fin 8) : (affine v).getLsbD i = affineBit v i := by
  simp only [affine, BitVec.getLsbD_or, getLsbD_bitAt _ _ i.isLt]
  fin_cases i <;> simp

/-- Bit `i` of a rotation left by `r` is bit `i - r`, cyclically. -/
theorem getLsbD_rotateLeft_eq {r i : Nat} (hr : r < 8) (hi : i < 8) (v : Byte) :
    (v.rotateLeft r).getLsbD i = v.getLsbD ((i + (8 - r)) % 8) := by
  rw [BitVec.getLsbD_rotateLeft, Nat.mod_eq_of_lt hr]
  rcases Nat.lt_or_ge i r with h | h
  · have hmod : (i + (8 - r)) % 8 = 8 - r + i := by omega
    simp [h, hmod]
  · have hmod : (i + (8 - r)) % 8 = i - r := by omega
    simp [h.not_gt, hi, hmod]

/-- Rotated left by 1, 2, 3 and 4, input bits `i + 7`, `i + 6`, `i + 5` and `i + 4` come to place `i`. -/
theorem affine_eq_rotations (v : Byte) :
    affine v = v ^^^ v.rotateLeft 1 ^^^ v.rotateLeft 2 ^^^ v.rotateLeft 3 ^^^ v.rotateLeft 4 ^^^ 0x63#8 := by
  refine BitVec.eq_of_getLsbD_eq fun i hi => ?_
  rw [getLsbD_affine v ⟨i, hi⟩, affineBit]
  simp only [BitVec.getLsbD_xor, getLsbD_rotateLeft_eq _ hi, Nat.reduceLT, Nat.reduceSub, Config.affC,
    Bool.xor_assoc, Bool.xor_comm, Bool.xor_left_comm]

/-- Settles O13: the bit formula is the definition read bit by bit, and a rotation only renumbers the bits. -/
theorem affineByBitsAndRotations : Obligations.AffineByBitsAndRotations :=
  ⟨getLsbD_affine, affine_eq_rotations, by decide, by decide, by decide, by decide⟩

/-! ### The substitution box (R113, R114, R116) -/

/-- Applied four times, the affine transform restores the byte. -/
theorem affine_iterate_four (v : Byte) : affine^[4] v = v := by
  revert v
  decide +kernel

theorem affine_bijective : Function.Bijective affine :=
  Finite.injective_iff_bijective.mp (Function.LeftInverse.injective (g := affine^[3]) affine_iterate_four)

/-- The construction is `affine` after `gfinv`, each of them a bijection. -/
theorem sbox_bijective : Function.Bijective sbox := affine_bijective.comp gfinv_involutive.bijective

/-- The table of R114 is the affine transform of the table of R115, entry by entry. -/
theorem affine_inverseTable (v : Byte) : affine (tableAt inverseTable v) = tableAt sboxTable v := by
  revert v
  decide +kernel

theorem sbox_eq_sboxTable (v : Byte) : sbox v = tableAt sboxTable v := by
  rw [sbox, gfinv_eq_inverseTable, affine_inverseTable]

/-- Read off the table of R114. -/
theorem sbox_ne_self_and_ne_complement (v : Byte) : sbox v ≠ v ∧ sbox v ≠ v ^^^ 0xFF#8 := by
  rw [sbox_eq_sboxTable]
  revert v
  decide +kernel

/-- Settles O14: bijective as a composition; the two exclusions are read off the table. -/
theorem sboxIsBijectionWithoutFixedPoint : Obligations.SboxIsBijectionWithoutFixedPoint :=
  ⟨sbox_bijective, by decide, fun v => (sbox_ne_self_and_ne_complement v).1,
    fun v => (sbox_ne_self_and_ne_complement v).2⟩

/-- Settles O15: the command writes `RES` alone, with the table's entry. -/
theorem sboxWritesTableEntry : Obligations.SboxWritesTableEntry := by
  intro a s
  rw [exec_sbox, sbox_eq_sboxTable, writeRes]

end Sys2Proof.Proofs
end

section
/-!
PROOFS of the family 42_aes_state_transforms.md: the four transforms of the state matrix and the commands that apply
them to `S` (R120 to R130).
-/

namespace Sys2Proof.Proofs

open Sys2Proof Sys2Proof.Machine Sys2Proof.Safety

/-! ### A command that maps `S`, issued again and again -/

section
variable {i : Instr} {s : State} {f : Block → Block}

/-- A command that writes `f` of `S` to `S`, whatever `S` is, writes the `n`-th iterate of `f` when issued `n` times. -/
theorem runInstrs_replicate (h : ∀ b, exec i (writeS s b) = .next (writeS s (f b))) (n : Nat) (b : Block) :
    runInstrs (List.replicate n i) (writeS s b) = .next (writeS s (f^[n] b)) := by
  induction n generalizing b with
  | zero => rfl
  | succ n ih => exact (runInstrs_cons (h b) _).trans (ih (f b))

theorem runInstrs_replicate_restores {n : Nat} (h : ∀ b, exec i (writeS s b) = .next (writeS s (f b)))
    (hf : f^[n] = id) : runInstrs (List.replicate n i) s = .next s := by
  have hrun := runInstrs_replicate h n s.S
  rwa [hf] at hrun

end

/-! ### `add_round_key` (R128, R129, R130) -/

theorem addRoundKey_eq_blockOf (M K : Block) : addRoundKey M K = blockOf fun i => byteAt M i ^^^ byteAt K i :=
  block_ext fun i => by rw [byteAt_addRoundKey, byteAt_blockOf]

theorem addRoundKey_zeroBlock (M : Block) : addRoundKey M zeroBlock = M :=
  block_ext fun i => by rw [byteAt_addRoundKey, byteAt_zeroBlock, BitVec.xor_zero]

theorem addRoundKey_self (M : Block) : addRoundKey M M = zeroBlock :=
  block_ext fun i => by rw [byteAt_addRoundKey, byteAt_zeroBlock, BitVec.xor_self]

theorem addRoundKey_comm (M K : Block) : addRoundKey M K = addRoundKey K M :=
  block_ext fun i => by rw [byteAt_addRoundKey, byteAt_addRoundKey, BitVec.xor_comm]

theorem addRoundKey_assoc (M K L : Block) : addRoundKey (addRoundKey M K) L = addRoundKey M (addRoundKey K L) :=
  block_ext fun i => by simp only [byteAt_addRoundKey, BitVec.xor_assoc]

theorem addRoundKey_involutive (K : Block) : Function.Involutive (addRoundKey · K) := fun M =>
  calc addRoundKey (addRoundKey M K) K = addRoundKey M zeroBlock := by rw [addRoundKey_assoc, addRoundKey_self]
    _ = M := addRoundKey_zeroBlock M

/-- Settles O21: the laws of exclusive or, byte by byte; the second follows from associativity and the other two. -/
theorem addRoundKeyLaws : Obligations.AddRoundKeyLaws :=
  ⟨addRoundKey_zeroBlock, fun M K => addRoundKey_involutive K M, addRoundKey_comm, addRoundKey_self⟩

/-- `ADDROUNDKEY k` does not write `RK`, so the second time it adds the same round key. -/
theorem runInstrs_addroundkey_twice {k : BitVec 4} (hk : k.toNat ≤ 10) (s : State) :
    runInstrs [.addroundkey k, .addroundkey k] s = .next s := by
  have hexec (b : Block) : exec (.addroundkey k) (writeS s b) =
      .next (writeS s (addRoundKey b (bankAt s.RK ⟨k.toNat, Nat.lt_succ_of_le hk⟩))) :=
    exec_addroundkey_of_le hk (writeS s b)
  have htwice := Function.involutive_iff_iter_2_eq_id.mp
    (addRoundKey_involutive (bankAt s.RK ⟨k.toNat, Nat.lt_succ_of_le hk⟩))
  exact runInstrs_replicate_restores hexec htwice

/-- Settles O20: an index 0..10 names a bank entry, whose addition is its own inverse; an index 11..15 names none. -/
theorem addroundkeyAddsBankEntry : Obligations.AddroundkeyAddsBankEntry := by
  refine ⟨fun k s hk => ⟨?_, runInstrs_addroundkey_twice hk s⟩, fun k s hk => exec_addroundkey_of_gt hk s⟩
  rw [exec_addroundkey_of_le hk, addRoundKey_eq_blockOf, writeS]

/-! ### `sub_bytes` (R121, R122) -/

theorem subBytes_eq_blockOf (M : Block) : subBytes M = blockOf fun i => tableAt sboxTable (byteAt M i) :=
  block_ext fun i => by rw [byteAt_subBytes, byteAt_blockOf, sbox_eq_sboxTable]

/-- Settles O16: each byte goes to its entry of the table, and the substitution box has no fixed point (R113). -/
theorem subbytesSubstitutesEveryByte : Obligations.SubbytesSubstitutesEveryByte := by
  intro s
  constructor
  · rw [exec_subbytes, subBytes_eq_blockOf, writeS]
  · intro i
    rw [← sbox_eq_sboxTable]
    exact (sbox_ne_self_and_ne_complement _).1

/-! ### `shift_rows` (R123, R124) -/

/-- Byte `i` of the new matrix is byte `5 i` modulo 16 of the old one: one column further for each row down. -/
theorem byteAt_shiftRows (M : Block) (i : Fin 16) : byteAt (shiftRows M) i = byteAt M (5 * i) := by
  have hindex : indexOfCell (rowOfIndex i) (colOfIndex i + rowOfIndex i) = 5 * i := by
    revert i
    decide
  rw [shiftRows, byteAt_matrixOf, cell, hindex]

/-- The list of R123 is the byte order that `byteAt_shiftRows` gives. -/
theorem shiftRows_eq_permutation (M : Block) :
    shiftRows M = #v[byteAt M 0, byteAt M 5, byteAt M 10, byteAt M 15, byteAt M 4, byteAt M 9, byteAt M 14, byteAt M 3,
      byteAt M 8, byteAt M 13, byteAt M 2, byteAt M 7, byteAt M 12, byteAt M 1, byteAt M 6, byteAt M 11] := by
  refine block_ext fun i => ?_
  rw [byteAt_shiftRows]
  fin_cases i <;> rfl

/-- Four rotations by `r` of a row of 4 are a whole number of turns. -/
theorem shiftRows_iterate_four : shiftRows^[4] = id := by
  refine funext fun M => block_ext_cells fun r c => ?_
  have hturn : c + r + r + r + r = c := by
    revert r c
    decide
  calc cell (shiftRows^[4] M) r c = cell M r (c + r + r + r + r) := by
        simp only [Function.iterate_succ_apply, Function.iterate_zero_apply, cell_shiftRows]
    _ = cell M r c := by rw [hturn]

/-- Settles O17: the rotation of row `r` by `r`, written out for the 16 bytes; four of them turn each row full
circle. -/
theorem shiftrowsPermutesBytes : Obligations.ShiftrowsPermutesBytes := by
  intro s
  constructor
  · rw [exec_shiftrows, shiftRows_eq_permutation, writeS]
  · exact runInstrs_replicate_restores (n := 4) (fun b => exec_shiftrows (writeS s b)) shiftRows_iterate_four

/-! ### `mix_columns` (R125, R126, R127) -/

theorem xor_rotate (a b c d : Byte) : a ^^^ b ^^^ c ^^^ d = b ^^^ c ^^^ d ^^^ a := by
  ac_rfl

/-- The four lines of R125 in one: the coefficients 02 03 01 01, rotated with the row. -/
theorem colByte_mixColumn (C : Column) (r : Fin 4) :
    colByte (mixColumn C) r =
      gfmul 0x02#8 (colByte C r) ^^^ gfmul 0x03#8 (colByte C (r + 1)) ^^^ colByte C (r + 2) ^^^ colByte C (r + 3) := by
  match r with
  | 0 => rfl
  | 1 => exact xor_rotate ..
  | 2 => exact (xor_rotate ..).trans (xor_rotate ..)
  | 3 => exact (xor_rotate ..).symm

theorem mixColumns_eq_matrixOf (M : Block) :
    mixColumns M = matrixOf fun r c =>
      gfmul 0x02#8 (cell M r c) ^^^ gfmul 0x03#8 (cell M (r + 1) c) ^^^ cell M (r + 2) c ^^^ cell M (r + 3) c :=
  block_ext_cells fun r c => by simp only [cell_mixColumns, colByte_mixColumn, colByte_column, cell_matrixOf]

/-- Settles O18: each cell is a row of the matrix times the old column. -/
theorem mixcolumnsMultipliesByMatrix : Obligations.MixcolumnsMultipliesByMatrix := by
  intro s
  rw [exec_mixcolumns, mixColumns_eq_matrixOf, writeS]

/-- The field product distributes over exclusive or (R102), and so does each line of R125. -/
theorem mixColumn_xorColumn (A B : Column) : mixColumn (xorColumn A B) = xorColumn (mixColumn A) (mixColumn B) :=
  column_ext fun r => by
    simp only [colByte_mixColumn, colByte_xorColumn, gfmul_xor_right]
    ac_rfl

theorem column_addRoundKey (M K : Block) (c : Fin 4) :
    column (addRoundKey M K) c = xorColumn (column M c) (column K c) :=
  column_ext fun r => by simp only [colByte_column, cell_addRoundKey, colByte_xorColumn]

theorem mixColumns_addRoundKey (M N : Block) :
    mixColumns (addRoundKey M N) = addRoundKey (mixColumns M) (mixColumns N) :=
  block_ext_cells fun r c => by
    rw [cell_addRoundKey, cell_mixColumns, cell_mixColumns, cell_mixColumns, column_addRoundKey, mixColumn_xorColumn,
      colByte_xorColumn]

theorem gfmul_three (a : Byte) : gfmul 0x03#8 a = gfmul 0x02#8 a ^^^ a :=
  calc gfmul 0x03#8 a = gfmul 0x02#8 a ^^^ gfmul 0x01#8 a := isXorHom_gfmul_left a 0x02#8 0x01#8
    _ = gfmul 0x02#8 a ^^^ a := by rw [gfmul_one_left]

/-- The coefficients of a row add up to 02 + 03 + 01 + 01 = 01. -/
theorem mixColumn_replicate (v : Byte) : mixColumn #v[v, v, v, v] = #v[v, v, v, v] := by
  have hbyte (r : Fin 4) : colByte #v[v, v, v, v] r = v := by fin_cases r <;> rfl
  refine column_ext fun r => ?_
  calc colByte (mixColumn #v[v, v, v, v]) r = gfmul 0x02#8 v ^^^ gfmul 0x03#8 v ^^^ v ^^^ v := by
        simp only [colByte_mixColumn, hbyte]
    _ = v := by simp [gfmul_three]
    _ = colByte #v[v, v, v, v] r := (hbyte r).symm

/-- Settles O19: the laws by columns and over exclusive or; the images of the five fixed columns are computed. -/
theorem mixColumnsIsLinear : Obligations.MixColumnsIsLinear :=
  ⟨column_mixColumns, mixColumns_addRoundKey, mixColumn_replicate, by decide, by decide, by decide, by decide,
    by decide⟩

end Sys2Proof.Proofs
end

section
/-!
PROOFS of the family 43_aes_key_schedule.md: the recurrence of the round keys (R141, R142) and the round constants
(R140).
-/

namespace Sys2Proof.Proofs

open Sys2Proof Sys2Proof.Machine

/-! ### The recurrence of R141, cell by cell and in the block view -/

theorem bankAt_keyExpand_succ (K : Block) (r : Fin 10) :
    bankAt (keyExpand K) r.succ = nextRoundKey (bankAt (keyExpand K) r.castSucc) Config.rcon[r] := by
  rw [bankAt_keyExpand, bankAt_keyExpand]
  rfl

/-- Steps 1 to 4 of R141: the round constant goes into the first byte only. -/
theorem colByte_scheduleWord (P : Block) (k : Byte) (r : Fin 4) :
    colByte (scheduleWord P k) r = if r = 0 then sbox (cell P (r + 1) 3) ^^^ k else sbox (cell P (r + 1) 3) := by
  simp [scheduleWord]

/-- Step 5 of R141. -/
theorem cell_nextRoundKey_zero (P : Block) (k : Byte) (r : Fin 4) :
    cell (nextRoundKey P k) r 0 = cell P r 0 ^^^ colByte (scheduleWord P k) r := by
  rw [← colByte_column, column_nextRoundKey_zero, colByte_xorColumn, colByte_column]

/-- Rows 1 to 3 of column 0 take no round constant. -/
theorem cell_nextRoundKey_zero_of_ne (P : Block) (k : Byte) {r : Fin 4} (hr : r ≠ 0) :
    cell (nextRoundKey P k) r 0 = cell P r 0 ^^^ sbox (cell P (r + 1) 3) := by
  rw [cell_nextRoundKey_zero, colByte_scheduleWord, if_neg hr]

theorem column_nextRoundKey_succ (P : Block) (k : Byte) (c : Fin 3) :
    column (nextRoundKey P k) c.succ = xorColumn (column P c.succ) (column (nextRoundKey P k) c.castSucc) :=
  match c with
  | 0 => column_nextRoundKey_one P k
  | 1 => column_nextRoundKey_two P k
  | 2 => column_nextRoundKey_three P k

/-- Step 6 of R141. -/
theorem cell_nextRoundKey_succ (P : Block) (k : Byte) (r : Fin 4) (c : Fin 3) :
    cell (nextRoundKey P k) r c.succ = cell P r c.succ ^^^ cell (nextRoundKey P k) r c.castSucc := by
  rw [← colByte_column, column_nextRoundKey_succ, colByte_xorColumn, colByte_column, colByte_column]

/-- The first byte of the block view is the one that takes the round constant. -/
theorem byteAt_nextRoundKey_zero (P : Block) (k : Byte) :
    byteAt (nextRoundKey P k) 0 = byteAt P 0 ^^^ sbox (byteAt P 13) ^^^ k :=
  calc cell (nextRoundKey P k) 0 0 = cell P 0 0 ^^^ (sbox (cell P 1 3) ^^^ k) := by
        rw [cell_nextRoundKey_zero, colByte_scheduleWord, if_pos rfl, zero_add]
    _ = cell P 0 0 ^^^ sbox (cell P 1 3) ^^^ k := (BitVec.xor_assoc ..).symm

/-- Step 6 of R141 in the block view: the byte in the same row of the column before stands four bytes earlier. -/
theorem byteAt_nextRoundKey_add_four (P : Block) (k : Byte) (j : Fin 12) :
    byteAt (nextRoundKey P k) ⟨j.val + 4, by omega⟩ =
      byteAt P ⟨j.val + 4, by omega⟩ ^^^ byteAt (nextRoundKey P k) ⟨j.val, by omega⟩ := by
  obtain ⟨r, c, hj⟩ : ∃ (r : Fin 4) (c : Fin 3), j.val = r.val + 4 * c.val :=
    ⟨⟨j.val % 4, by omega⟩, ⟨j.val / 4, by omega⟩, (Nat.mod_add_div j.val 4).symm⟩
  have hearlier : (⟨j.val, by omega⟩ : Fin 16) = indexOfCell r c.castSucc := Fin.ext hj
  have hlater : (⟨j.val + 4, by omega⟩ : Fin 16) = indexOfCell r c.succ :=
    Fin.ext (by simp only [indexOfCell, Fin.val_succ]; omega)
  rw [hlater, hearlier]
  exact cell_nextRoundKey_succ P k r c

/-- Settles O22: the bank is the expansion of `KEY`, each of whose later entries is `nextRoundKey` of the one before. -/
theorem keyexpandWritesSchedule : Obligations.KeyexpandWritesSchedule := by
  intro s
  refine ⟨keyExpand s.KEY, exec_keyexpand s, bankAt_keyExpand s.KEY 0, fun r => ?_⟩
  rw [bankAt_keyExpand_succ]
  exact ⟨byteAt_nextRoundKey_zero _ _,
    cell_nextRoundKey_zero_of_ne (r := 1) _ _ (by decide),
    cell_nextRoundKey_zero_of_ne (r := 2) _ _ (by decide),
    cell_nextRoundKey_zero_of_ne (r := 3) _ _ (by decide),
    byteAt_nextRoundKey_add_four _ _⟩

/-! ### The round constants (R140) -/

/-- Settles O23: the product with 0x02 is the doubling of R103, compared with the list for each of the nine steps. -/
theorem roundConstantsDouble : Obligations.RoundConstantsDouble := by
  refine ⟨rfl, fun r => ?_⟩
  rw [gfmul_two]
  revert r
  decide

end Sys2Proof.Proofs
end

section
/-!
PROOFS of the family 44_aes_encrypt_10round.md: the rounds of `ENCRYPT` and its trace (R150 to R154), the command
sequence of R155, the known answer (R156), the trace bank (R157) and the use at the port (R158).
-/

namespace Sys2Proof.Proofs

open Sys2Proof Sys2Proof.Machine Sys2Proof.Safety

/-! ### The trace, round by round (R150, R151, R153) -/

theorem roundStep_zero (M : Block) (W : Bank) : roundStep 0 M W = addRoundKey M (bankAt W 0) := rfl

theorem bankAt_traceOf_zero (W : Bank) (P : Block) : bankAt (traceOf W P) 0 = roundStep 0 P W :=
  bankAt_traceOf W P 0

/-- Each round runs on the state the previous one left. -/
theorem bankAt_traceOf_succ (W : Bank) (P : Block) (r : Fin 10) :
    bankAt (traceOf W P) r.succ = roundStep r.succ (bankAt (traceOf W P) r.castSucc) W := by
  rw [bankAt_traceOf, bankAt_traceOf]
  rfl

theorem ciphertext_eq_bankAt_traceOf (P K : Block) : ciphertext P K = bankAt (traceOf (keyExpand K) P) 10 :=
  (bankAt_traceOf (keyExpand K) P 10).symm

/-- Settles O25: the bank `ENCRYPT` leaves in `TR` is the trace, which follows round by round. -/
theorem encryptRunsElevenRounds : Obligations.EncryptRunsElevenRounds := by
  intro s
  have hround0 : bankAt (afterEncrypt s).TR 0 = addRoundKey s.S s.KEY := by
    rw [afterEncrypt_TR, bankAt_traceOf_zero, roundStep_zero, bankAt_keyExpand]
    rfl
  have hrounds (r : Fin 9) : bankAt (afterEncrypt s).TR r.castSucc.succ =
      addRoundKey (mixColumns (shiftRows (subBytes (bankAt (afterEncrypt s).TR r.castSucc.castSucc))))
        (bankAt (afterEncrypt s).RK r.castSucc.succ) := by
    have hr : 1 ≤ r.castSucc.succ.val ∧ r.castSucc.succ.val ≤ 9 := by simp
    rw [afterEncrypt_TR, bankAt_traceOf_succ, roundStep_middle hr, afterEncrypt_RK]
  have hround10 : bankAt (afterEncrypt s).TR 10 =
      addRoundKey (shiftRows (subBytes (bankAt (afterEncrypt s).TR 9))) (bankAt (afterEncrypt s).RK 10) :=
    bankAt_traceOf_succ (keyExpand s.KEY) s.S 9
  exact ⟨afterEncrypt s, exec_encrypt s, rfl, hround0, hrounds, hround10, ciphertext_eq_bankAt_traceOf s.S s.KEY,
    rndOf_setRnd _ _, errOf_setRnd _ _, reservedOf_setRnd _ _, rfl⟩

/-! ### `ENCRYPT` command by command (R155) -/

theorem runInstrs_append {is : List Instr} {s t : State} (h : runInstrs is s = .next t) (js : List Instr) :
    runInstrs (is ++ js) s = runInstrs js t := by
  induction is generalizing s with
  | nil =>
    cases h
    rfl
  | cons i is ih =>
    cases hexec : exec i s with
    | next u =>
      rw [runInstrs_cons hexec] at h
      rw [List.cons_append, runInstrs_cons hexec, ih h]
    | fault r => simp [runInstrs, hexec] at h
    | refused r => simp [runInstrs, hexec] at h

/-- The commands of rounds 1 to `n`. -/
def roundCommands (n : Nat) : List Instr :=
  (List.range' 1 n).flatMap fun r => expandPseudo (.round (BitVec.ofNat 4 r))

theorem roundCommands_succ (n : Nat) :
    roundCommands (n + 1) = roundCommands n ++ expandPseudo (.round (BitVec.ofNat 4 (n + 1))) := by
  simp [roundCommands, List.range'_concat, Nat.add_comm]

theorem encryptByCommands_eq :
    encryptByCommands = .keyexpand :: .addroundkey 0#4 :: (roundCommands 9 ++ expandPseudo .finalround) := rfl

/-- On the state after round 0, the commands of rounds 1 to `n` leave in `S` the state after round `n`. -/
theorem runInstrs_roundCommands (s : State) (P : Block) {n : Nat} (hn : n ≤ 9) :
    runInstrs (roundCommands n) (writeS s (stateAfterRound s.RK P 0 (by decide))) =
      .next (writeS s (stateAfterRound s.RK P n (by omega))) := by
  induction n with
  | zero => rfl
  | succ n ih =>
    have hr : (BitVec.ofNat 4 (n + 1)).toNat = n + 1 := Nat.mod_eq_of_lt (by omega)
    rw [roundCommands_succ, runInstrs_append (ih (by omega)), runInstrs_round (by omega)]
    simp only [hr]
    rfl

theorem runInstrs_encryptByCommands (s : State) :
    runInstrs encryptByCommands s = .next (writeS (writeRK s (keyExpand s.KEY)) (ciphertext s.S s.KEY)) := by
  rw [encryptByCommands_eq, runInstrs_cons (exec_keyexpand s),
    runInstrs_cons (exec_addroundkey_of_le (by decide) (writeRK s (keyExpand s.KEY)))]
  refine (runInstrs_append (runInstrs_roundCommands (writeRK s (keyExpand s.KEY)) s.S (le_refl 9)) _).trans ?_
  rw [runInstrs_finalround]
  rfl

/-- Settles O26: the primitive commands make the writes of `ENCRYPT` to `RK` and `S`, and no others. -/
theorem encryptEqualsPrimitiveCommands : Obligations.EncryptEqualsPrimitiveCommands :=
  ⟨rfl, fun s => ⟨afterEncrypt s, _, exec_encrypt s, runInstrs_encryptByCommands s, rfl⟩⟩

/-! ### The trace bank (R157) -/

theorem exec_encrypt_writeTR (s : State) (T : Bank) : exec .encrypt (writeTR s T) = exec .encrypt s := rfl

/-- Every command but `ENCRYPT` makes one write, to a register other than `TR` and of a value no part of `TR`. -/
theorem exec_writeTR {i : Instr} {s t : State} (hi : i ≠ .encrypt) (h : exec i s = .next t) (T : Bank) :
    exec i (writeTR s T) = .next (writeTR t T) := by
  cases i with
  | gfmul a b => cases (exec_gfmul a b s).symm.trans h; rfl
  | sbox a => cases (exec_sbox a s).symm.trans h; rfl
  | subbytes => cases (exec_subbytes s).symm.trans h; rfl
  | shiftrows => cases (exec_shiftrows s).symm.trans h; rfl
  | mixcolumns => cases (exec_mixcolumns s).symm.trans h; rfl
  | addroundkey k =>
    by_cases hk : k.toNat ≤ 10
    · cases (exec_addroundkey_of_le hk s).symm.trans h
      exact exec_addroundkey_of_le hk (writeTR s T)
    · cases (exec_addroundkey_of_gt (not_le.mp hk) s).symm.trans h
      exact exec_addroundkey_of_gt (not_le.mp hk) (writeTR s T)
  | keyexpand => cases (exec_keyexpand s).symm.trans h; rfl
  | encrypt => exact absurd rfl hi
  | lds d => cases (exec_lds d s).symm.trans h; rfl
  | ldk d => cases (exec_ldk d s).symm.trans h; rfl

/-- Settles O29: `ENCRYPT` overwrites whatever `TR` holds, and every other command leaves it where it is. -/
theorem traceNeverFeedsBack : Obligations.TraceNeverFeedsBack := by
  intro i s t T h
  by_cases hi : i = .encrypt
  · subst hi
    exact (exec_encrypt_writeTR s T).trans h
  · rw [if_neg hi]
    exact exec_writeTR hi h T

/-! ### Three commands at the port (R158) -/

theorem run_succ {s t : State} (h : step s = .next t) (k : Nat) : run (k + 1) s = run k t := by
  rw [run, h]

/-- A command issued to an idle block and waited for runs in two steps: its acceptance and its completion. -/
theorem run_issue_wait {s t : State} {c : Command} {i : Instr} {rest : List HostAction} (hidle : s.busy = none)
    (hhost : s.host = .issue c :: .wait :: rest) (hdec : decode c = .ok i) (hexec : exec i (setHost s rest) = .next t)
    (k : Nat) : run (k + 2) s = run k t := by
  have haccept : step s = .next (acceptCommand (setHost s (.wait :: rest)) c) := step_idle_issue hidle hhost
  have hcomplete : step (acceptCommand (setHost s (.wait :: rest)) c) = .next t := by
    rw [step_of_busy rfl (.inr rfl), runCommand_of_ok hdec, ← hexec, setHost, ← hidle]
    rfl
  rw [run_succ haccept, run_succ hcomplete]

theorem runEnded_of_idle {s : State} (hidle : s.busy = none) (hhost : s.host = []) : runEnded s = true := by
  rw [runEnded, hidle, hhost]
  rfl

section
variable (k : BitVec 4) (a b : Byte) (din : BitVec 128)

theorem opField_append (op : BitVec 4) : opField (op ++ k ++ a ++ b) = op := by
  rw [append_eq_commandWord, opField_commandWord]

theorem decode_lds_word : decode ⟨0x8#4 ++ k ++ a ++ b, din⟩ = .ok (.lds (blockOfFlat din)) :=
  (DecodesTo.lds (c := ⟨0x8#4 ++ k ++ a ++ b, din⟩) (opField_append ..)).decode_eq

theorem decode_ldk_word : decode ⟨0x9#4 ++ k ++ a ++ b, din⟩ = .ok (.ldk (blockOfFlat din)) :=
  (DecodesTo.ldk (c := ⟨0x9#4 ++ k ++ a ++ b, din⟩) (opField_append ..)).decode_eq

theorem decode_encrypt_word : decode ⟨0x7#4 ++ k ++ a ++ b, din⟩ = .ok .encrypt :=
  (DecodesTo.encrypt (c := ⟨0x7#4 ++ k ++ a ++ b, din⟩) (opField_append ..)).decode_eq

end

/-- Settles O30: each of the three commands runs in two steps, on the state the one before it left. -/
theorem loadLoadEncryptGivesCiphertext : Obligations.LoadLoadEncryptGivesCiphertext := by
  intro s p k din k1 k2 k3 a1 a2 a3 b1 b2 b3 hidle hhost
  refine ⟨afterEncrypt (setHost (writeKey (writeS s (blockOfFlat p)) (blockOfFlat k)) []), ?_, ?_, rfl, rfl, rfl,
    errOf_setRnd _ _⟩
  · refine Eq.trans (run_issue_wait hidle hhost (decode_lds_word ..) (exec_lds ..) 4) ?_
    refine Eq.trans (run_issue_wait (by exact hidle) rfl (decode_ldk_word ..) (exec_ldk ..) 2) ?_
    exact run_issue_wait (by exact hidle) rfl (decode_encrypt_word ..) (exec_encrypt _) 0
  · exact runEnded_of_idle hidle rfl

/-! ### The known answer (R156) and the final round (R152) -/

/-- The expansion of a key is the one bank that starts with it and obeys the recurrence of R141. -/
theorem keyExpand_eq_of_recurrence {K : Block} {W : Bank} (h0 : bankAt W 0 = K)
    (h : ∀ r : Fin 10, bankAt W r.succ = nextRoundKey (bankAt W r.castSucc) Config.rcon[r]) :
    keyExpand K = W :=
  bank_ext fun k => by
    induction k using Fin.induction with
    | zero => exact (bankAt_keyExpand K 0).trans h0.symm
    | succ r ih => rw [bankAt_keyExpand_succ, ih, h r]

/-- The trace is the one bank that starts with round 0 and whose every later entry is its round on the one before. -/
theorem traceOf_eq_of_recurrence {W T : Bank} {P : Block} (h0 : bankAt T 0 = roundStep 0 P W)
    (h : ∀ r : Fin 10, bankAt T r.succ = roundStep r.succ (bankAt T r.castSucc) W) : traceOf W P = T :=
  bank_ext fun k => by
    induction k using Fin.induction with
    | zero => exact (bankAt_traceOf_zero W P).trans h0.symm
    | succ r ih => rw [bankAt_traceOf_succ, ih, h r]

/-- The table in place of the inverse search, as `subBytes_eq_blockOf` says for a block. -/
theorem subWord_eq_columnOf (w : Column) : subWord w = columnOf fun r => tableAt sboxTable (colByte w r) :=
  column_ext fun r => by rw [colByte_subWord, colByte_columnOf, sbox_eq_sboxTable]

/-- The round keys of the all-zero key (95_test_vectors.md section 2.5). -/
def zeroKeySchedule : Bank :=
  #v[blockOfFlat 0x00000000000000000000000000000000#128, blockOfFlat 0x62636363626363636263636362636363#128,
     blockOfFlat 0x9b9898c9f9fbfbaa9b9898c9f9fbfbaa#128, blockOfFlat 0x90973450696ccffaf2f457330b0fac99#128,
     blockOfFlat 0xee06da7b876a1581759e42b27e91ee2b#128, blockOfFlat 0x7f2e2b88f8443e098dda7cbbf34b9290#128,
     blockOfFlat 0xec614b851425758c99ff09376ab49ba7#128, blockOfFlat 0x217517873550620bacaf6b3cc61bf09b#128,
     blockOfFlat 0x0ef903333ba9613897060a04511dfa9f#128, blockOfFlat 0xb1d4d8e28a7db9da1d7bb3de4c664941#128,
     blockOfFlat 0xb4ef5bcb3e92e21123e951cf6f8f188e#128]

/-- The states after rounds 0..10 on the all-zero block under the all-zero key (95_test_vectors.md section 2.6). -/
def zeroTrace : Bank :=
  #v[blockOfFlat 0x00000000000000000000000000000000#128, blockOfFlat 0x01000000010000000100000001000000#128,
     blockOfFlat 0xc6e4e48ba48787e8c6e4e48ba48787e8#128, blockOfFlat 0x282df3c46af386254a4e90a70890e546#128,
     blockOfFlat 0xabd2cdfe375ab54950a0afc0759a6a5f#128, blockOfFlat 0xd46f4f6c55b896337e05bb3d7979de23#128,
     blockOfFlat 0x04f2ca9707782845e22f019649c5d710#128, blockOfFlat 0xb7aae4c51d252d4f6c920f8194e58150#128,
     blockOfFlat 0x23e78c3c132163dbaac0c6572e03cb95#128, blockOfFlat 0x7ffe0e9551a566350e347c472929eccb#128,
     blockOfFlat 0x66e94bd4ef8a2c3b884cfa59ca342b2e#128]

/-- In the same run, the matrix after `shift_rows` in each of rounds 1..10 (section 2.6): where the
evaluation of a round is cut in two. -/
def zeroShifted : Vector Block 10 :=
  #v[blockOfFlat 0x63636363636363636363636363636363#128, blockOfFlat 0x7c6363637c6363637c6363637c636363#128,
     blockOfFlat 0xb417699b4969173db417699b4969173d#128, blockOfFlat 0x340d605a022fd91cd6600d3f30d8445c#128,
     blockOfFlat 0x62be79cf9ae002bb53b8bd3b9db5d5ba#128, blockOfFlat 0x486cea26fc6b1d50f3b684c3b6a89027#128,
     blockOfFlat 0xf2bc7ccac5150e8898a6746e3b893490#128, blockOfFlat 0xa93f7653a44f0ca650d9698422acd80c#128,
     blockOfFlat 0x26fdb42a7dba1febac7b64b93194fb5b#128, blockOfFlat 0xd206101fd118ce2aaba5ab96a5bb33a0#128]

theorem keyExpand_zeroBlock : keyExpand zeroBlock = zeroKeySchedule := by
  refine keyExpand_eq_of_recurrence (by decide) ?_
  simp only [nextRoundKey, scheduleWord, subWord_eq_columnOf]
  decide +kernel

theorem shiftRows_subBytes_zeroTrace (r : Fin 10) :
    shiftRows (subBytes (bankAt zeroTrace r.castSucc)) = zeroShifted[r] := by
  rw [subBytes_eq_blockOf]
  revert r
  decide +kernel

theorem traceOf_zeroBlock : traceOf zeroKeySchedule zeroBlock = zeroTrace := by
  refine traceOf_eq_of_recurrence (by decide) ?_
  simp only [roundStep, shiftRows_subBytes_zeroTrace]
  decide +kernel

/-- Settles O27: the last entry of the trace. -/
theorem knownAnswer : Obligations.KnownAnswer := by
  intro s hS hKEY
  refine ⟨afterEncrypt s, exec_encrypt s, ?_⟩
  rw [afterEncrypt_S, hS, hKEY, ciphertext_eq_bankAt_traceOf, keyExpand_zeroBlock, traceOf_zeroBlock]
  rfl

/-- Settles O28: the input of section 2.7 is the state after round 9 of the known answer, so substituting and shifting
give its matrix of round 10. -/
theorem finalRoundOmitsMixColumns : Obligations.FinalRoundOmitsMixColumns := by
  refine ⟨roundStep_final, fun W hW => ?_⟩
  have hshifted : shiftRows (subBytes (blockOfFlat 0x7ffe0e9551a566350e347c472929eccb#128)) = zeroShifted[9] :=
    shiftRows_subBytes_zeroTrace 9
  rw [roundStep_final, hshifted, hW]
  decide +kernel

end Sys2Proof.Proofs
end

section
/-!
PROOFS of the family 45_data_movement.md: the commands that load a block from `DIN` (R170, R171) and the place of its
bytes there (R51, R73).
-/

namespace Sys2Proof.Proofs

open Sys2Proof Sys2Proof.Machine

/-- The cells of a block cut out of a flat vector: column by column, from the most significant byte (R22, R51). -/
@[simp] theorem cell_blockOfFlat (v : BitVec 128) (r c : Fin 4) :
    cell (blockOfFlat v) r c = v.extractLsb' (120 - 8 * (r.val + 4 * c.val)) 8 :=
  byteAt_blockOfFlat v (indexOfCell r c)

/-- Settles O31: the command writes `S` alone, and its block is `DIN` cut into bytes, read by index and by cell. -/
theorem ldsLoadsBlock : Obligations.LdsLoadsBlock := by
  refine ⟨fun d s => ?_, fun k a b din => ⟨blockOfFlat din, decode_lds_word k a b din, ?_, ?_⟩⟩
  · rw [exec_lds, writeS]
  · exact byteAt_blockOfFlat din
  · exact cell_blockOfFlat din

/-- Settles O32: the command writes `KEY` alone, so `RK` stays, and its block is `DIN` cut into bytes. -/
theorem ldkLoadsKey : Obligations.LdkLoadsKey := by
  refine ⟨fun d s => ?_, fun k a b din => ⟨blockOfFlat din, decode_ldk_word k a b din, ?_⟩⟩
  · rw [exec_ldk, writeKey]
  · exact byteAt_blockOfFlat din

end Sys2Proof.Proofs
end

section
/-!
PROOFS of the family 60_exceptions.md: the one exception (R180, R181), the sticky `ERR` (R187), what a step is refused
for, and the run of a careful host (R194, R195).
-/

namespace Sys2Proof.Proofs

open Sys2Proof Sys2Proof.Machine Sys2Proof.Safety

/-! ### Every command completes (R181) -/

theorem exec_answers (i : Instr) (s : State) : ∃ t, exec i s = .next t := by
  cases i with
  | gfmul a b => exact ⟨_, exec_gfmul a b s⟩
  | sbox a => exact ⟨_, exec_sbox a s⟩
  | subbytes => exact ⟨_, exec_subbytes s⟩
  | shiftrows => exact ⟨_, exec_shiftrows s⟩
  | mixcolumns => exact ⟨_, exec_mixcolumns s⟩
  | addroundkey k =>
    by_cases hk : k.toNat ≤ 10
    · exact ⟨_, exec_addroundkey_of_le hk s⟩
    · exact ⟨_, exec_addroundkey_of_gt (not_le.mp hk) s⟩
  | keyexpand => exact ⟨_, exec_keyexpand s⟩
  | encrypt => exact ⟨_, exec_encrypt s⟩
  | lds d => exact ⟨_, exec_lds d s⟩
  | ldk d => exact ⟨_, exec_ldk d s⟩

theorem runCommand_answers (c : Command) (s : State) : ∃ t, runCommand c s = .next t := by
  obtain ⟨i, -, hrun⟩ | ⟨e, -, hrun⟩ := runCommand_cases c s
  · rw [hrun]
    exact exec_answers i s
  · exact ⟨_, hrun⟩

/-- The one row of the access matrix that writes `ERR` is the index no command word decodes to (R76). -/
theorem writesPart_ERR_of_wf {i : Instr} (hwf : i.wf = true) : writesPart i .ERR = false := by
  cases i
  case addroundkey k => rw [writesPart_addroundkey_of_le (of_decide_eq_true hwf)]; rfl
  all_goals rfl

theorem errOf_of_exec_wf {i : Instr} {s t : State} (hwf : i.wf = true) (h : exec i s = .next t) :
    errOf t.STATUS = errOf s.STATUS := by
  obtain ⟨hframe, -⟩ := exec_changesOnly h
  exact (hframe .ERR (writesPart_ERR_of_wf hwf)).symm

/-- Settles O6: a word that is not rejected decodes to a well-formed instruction, whose row does not write `ERR`. -/
theorem legalCommandCompletes : Obligations.LegalCommandCompletes := by
  refine ⟨rejected_iff_illegalWord, fun c s hlegal => ?_⟩
  cases hdec : decode c with
  | ok i =>
    have hwf : i.wf = true := wf_of_decode_eq_ok hdec
    obtain ⟨t, ht⟩ := exec_answers i s
    exact ⟨i, t, rfl, hwf, ht, errOf_of_exec_wf hwf ht⟩
  | error e => exact absurd ((rejected_iff_illegalWord c).mp ((rejected_iff_exists_error c).mpr ⟨e, hdec⟩)) hlegal

/-! ### `ERR` is sticky and blocks nothing (R187) -/

theorem setErr_eq_self_iff (w : Byte) : setErr w = w ↔ errOf w = true := by
  refine ⟨fun h => h ▸ errOf_setErr w, fun h => ?_⟩
  unfold errOf at h
  unfold setErr
  ext i hi
  interval_cases i <;> simp [h]

theorem setRnd_setErr (w : Byte) (r : BitVec 4) : setRnd (setErr w) r = setErr (setRnd w r) := by
  unfold setRnd setErr
  ext i hi
  interval_cases i <;> simp

theorem raiseInvalidInput_raiseInvalidInput (s : State) :
    raiseInvalidInput (raiseInvalidInput s) = raiseInvalidInput s :=
  congrArg (fun w => { s with STATUS := w }) (setErr_setErr s.STATUS)

/-- A state with `ERR` set is one that the exception leaves as it is. -/
theorem raiseInvalidInput_eq_self_iff (s : State) : raiseInvalidInput s = s ↔ errOf s.STATUS = true := by
  rw [← setErr_eq_self_iff]
  exact ⟨congrArg State.STATUS, fun h => congrArg (fun w => { s with STATUS := w }) h⟩

theorem afterEncrypt_raiseInvalidInput (s : State) :
    afterEncrypt (raiseInvalidInput s) = raiseInvalidInput (afterEncrypt s) :=
  congrArg (fun w => { afterEncrypt s with STATUS := w }) (setRnd_setErr s.STATUS 0xA#4)

/-- No command reads `ERR`: its writes are the same with the flag set, and leave it set. -/
theorem exec_raiseInvalidInput {i : Instr} {s t : State} (h : exec i s = .next t) :
    exec i (raiseInvalidInput s) = .next (raiseInvalidInput t) := by
  cases i with
  | gfmul a b => cases (exec_gfmul a b s).symm.trans h; rfl
  | sbox a => cases (exec_sbox a s).symm.trans h; rfl
  | subbytes => cases (exec_subbytes s).symm.trans h; rfl
  | shiftrows => cases (exec_shiftrows s).symm.trans h; rfl
  | mixcolumns => cases (exec_mixcolumns s).symm.trans h; rfl
  | addroundkey k =>
    by_cases hk : k.toNat ≤ 10
    · cases (exec_addroundkey_of_le hk s).symm.trans h
      exact exec_addroundkey_of_le hk (raiseInvalidInput s)
    · cases (exec_addroundkey_of_gt (not_le.mp hk) s).symm.trans h
      exact exec_addroundkey_of_gt (not_le.mp hk) (raiseInvalidInput s)
  | keyexpand => cases (exec_keyexpand s).symm.trans h; rfl
  | encrypt =>
    cases (exec_encrypt s).symm.trans h
    rw [exec_encrypt, afterEncrypt_raiseInvalidInput]
  | lds d => cases (exec_lds d s).symm.trans h; rfl
  | ldk d => cases (exec_ldk d s).symm.trans h; rfl

/-- On a state the exception leaves as it is, a command answers one it leaves as it is. -/
theorem exec_keeps_err {i : Instr} {s t : State} (hs : errOf s.STATUS = true) (h : exec i s = .next t) :
    errOf t.STATUS = true := by
  have hraised := exec_raiseInvalidInput h
  rw [(raiseInvalidInput_eq_self_iff s).mpr hs, h, Host.Outcome.next.injEq] at hraised
  exact (raiseInvalidInput_eq_self_iff t).mp hraised.symm

theorem runCommand_keeps_err {c : Command} {s t : State} (hs : errOf s.STATUS = true) (h : runCommand c s = .next t) :
    errOf t.STATUS = true := by
  obtain ⟨i, -, hrun⟩ | ⟨e, -, hrun⟩ := runCommand_cases c s
  · exact exec_keeps_err hs (hrun.symm.trans h)
  · cases hrun.symm.trans h
    exact errOf_setErr _

theorem step_keeps_err {s t : State} (h : step s = .next t) (hs : errOf s.STATUS = true)
    (hnoreset : s.host.head? ≠ some .reset) : errOf t.STATUS = true := by
  obtain hsame | ⟨hreset, -⟩ | ⟨c, u, -, hsame, hrun⟩ := step_registers_cases h
  · rwa [hsame.STATUS]
  · exact absurd hreset hnoreset
  · exact runCommand_keeps_err (by rwa [hsame.STATUS]) hrun

/-- Settles O7: commands do not read `ERR`, and none clears it. -/
theorem errStaysUntilReset : Obligations.ErrStaysUntilReset :=
  ⟨fun _ _ => step_keeps_err, raiseInvalidInput_raiseInvalidInput, fun _ _ _ => exec_raiseInvalidInput⟩

/-! ### When a step is refused (R194) -/

/-- The host issues a command or reads a register while the block is busy. -/
def ActsWhileBusy (s : State) : Prop :=
  s.busy ≠ none ∧ ∃ rest, (∃ c, s.host = .issue c :: rest) ∨ ∃ r, s.host = .read r :: rest

theorem step_reset {s : State} {rest : List HostAction} (hhost : s.host = .reset :: rest) :
    step s = .next (applyReset (setHost s rest)) := by
  cases hbusy : s.busy with
  | none => simp only [step_of_idle hbusy, idleStep, hhost]
  | some c => simp only [step, hostStep, hbusy, busyStep, hhost]

theorem step_of_actsWhileBusy {s : State} (h : ActsWhileBusy s) : step s = .refused .hostActedWhileBusy := by
  obtain ⟨hbusy, rest, hhost⟩ := h
  obtain ⟨c, hc⟩ := Option.ne_none_iff_exists'.mp hbusy
  obtain ⟨d, hissue⟩ | ⟨r, hread⟩ := hhost
  · simp only [step, hostStep, hc, busyStep, hissue]
  · simp only [step, hostStep, hc, busyStep, hread]

theorem step_of_busy_answers {s : State} {c : Command} (hbusy : s.busy = some c) (hhost : LetsComplete s) :
    ∃ t, step s = .next t := by
  rw [step_of_busy hbusy hhost]
  exact runCommand_answers c _

theorem step_answers {s : State} (h : ¬ ActsWhileBusy s) : ∃ t, step s = .next t := by
  cases hbusy : s.busy with
  | none =>
    cases hhost : s.host with
    | nil => exact ⟨_, step_idle_nil hbusy hhost⟩
    | cons action rest =>
      cases action with
      | issue c => exact ⟨_, step_idle_issue hbusy hhost⟩
      | read r => exact ⟨_, step_idle_read hbusy hhost⟩
      | reset => exact ⟨_, step_reset hhost⟩
      | wait => exact ⟨_, step_idle_wait hbusy hhost⟩
  | some c =>
    have hne : s.busy ≠ none := by simp [hbusy]
    cases hhost : s.host with
    | nil => exact step_of_busy_answers hbusy (.inl hhost)
    | cons action rest =>
      cases action with
      | issue d => exact absurd ⟨hne, rest, .inl ⟨d, hhost⟩⟩ h
      | read r => exact absurd ⟨hne, rest, .inr ⟨r, hhost⟩⟩ h
      | reset => exact ⟨_, step_reset hhost⟩
      | wait => exact step_of_busy_answers hbusy (.inr (by rw [hhost, List.head?_cons]))

/-- Settles O41: every step but that of a host acting while the block is busy answers; of faults there are none. -/
theorem refusalExactlyWhenHostActsWhileBusy : Obligations.RefusalExactlyWhenHostActsWhileBusy := by
  refine ⟨fun s => ⟨fun ⟨r, hr⟩ => ?_, fun h => ⟨_, step_of_actsWhileBusy h⟩⟩, fun s f => nomatch f⟩
  by_contra h
  obtain ⟨t, ht⟩ := step_answers h
  cases ht.symm.trans hr

/-! ### The run of a careful host (R194, R195) -/

/-- Whether the first of the host's actions is to issue a command. -/
def issuesFirst : List HostAction → Bool
  | .issue _ :: _ => true
  | _ => false

theorem runCommand_interface {c : Command} {s t : State} (h : runCommand c s = .next t) :
    t.busy = s.busy ∧ t.host = s.host := by
  obtain ⟨i, -, hrun⟩ | ⟨e, -, hrun⟩ := runCommand_cases c s
  · obtain ⟨-, -, hbusy, hhost, -⟩ := exec_changesOnly (hrun.symm.trans h)
    exact ⟨hbusy, hhost⟩
  · cases hrun.symm.trans h
    exact ⟨rfl, rfl⟩

/-- A step that answers has taken the host's first action, and the block is busy after it exactly when that action
issued a command. -/
theorem step_interface {s t : State} (h : step s = .next t) :
    t.host = s.host.tail ∧ t.busy.isSome = issuesFirst s.host := by
  obtain ⟨hnone, hidle⟩ | ⟨c, -, hbusy⟩ := step_cases h
  · obtain ⟨hhost, rfl⟩ | ⟨rest, ⟨c, hhost, rfl⟩ | ⟨r, hhost, rfl⟩ | ⟨hhost, rfl⟩ | ⟨hhost, rfl⟩⟩ :=
      idleStep_cases hidle
    all_goals simp [hhost, hnone, issuesFirst]
  · obtain ⟨hhost, hrun⟩ | ⟨rest, ⟨hhost, hrun⟩ | ⟨hhost, rfl⟩⟩ := busyStep_cases hbusy
    · obtain ⟨hb, hh⟩ := runCommand_interface hrun
      simp [hb, hh, hhost, issuesFirst]
    · obtain ⟨hb, hh⟩ := runCommand_interface hrun
      simp [hb, hh, hhost, issuesFirst]
    · simp [hhost, issuesFirst]

theorem not_actsWhileBusy_of_careful {s : State} (h : careful s.busy.isSome s.host = true) : ¬ ActsWhileBusy s := by
  rintro ⟨hbusy, rest, ⟨c, hhost⟩ | ⟨r, hhost⟩⟩
  all_goals
    rw [Option.isSome_iff_ne_none.mpr hbusy, hhost] at h
    cases h

theorem careful_tail {b : Bool} {actions : List HostAction} (h : careful b actions = true) :
    careful (issuesFirst actions) actions.tail = true := by
  cases actions with
  | nil => rfl
  | cons action rest =>
    cases b <;> cases action
    case true.issue | true.read => cases h
    all_goals exact h

/-- The step of a careful host answers, and the host is careful after it. -/
theorem step_careful {s : State} (h : careful s.busy.isSome s.host = true) :
    ∃ t, step s = .next t ∧ t.host = s.host.tail ∧ t.busy.isSome = issuesFirst s.host ∧
      careful t.busy.isSome t.host = true := by
  obtain ⟨t, ht⟩ := step_answers (not_actsWhileBusy_of_careful h)
  obtain ⟨hhost, hbusy⟩ := step_interface ht
  exact ⟨t, ht, hhost, hbusy, by rw [hhost, hbusy]; exact careful_tail h⟩

/-- Settles O42: each step takes one action, and one more completes a command still running. -/
theorem carefulHostRunEnds : Obligations.CarefulHostRunEnds := by
  intro s hcareful
  induction hactions : s.host generalizing s with
  | nil =>
    obtain ⟨t, ht, hhost, hbusy, -⟩ := step_careful hcareful
    rw [hactions] at hhost hbusy
    have hidle : t.busy = none := Option.not_isSome_iff_eq_none.mp (Bool.eq_false_iff.mp hbusy)
    exact ⟨1, t, le_rfl, run_succ ht 0, runEnded_of_idle hidle hhost⟩
  | cons action rest ih =>
    obtain ⟨t, ht, hhost, -, hcareful'⟩ := step_careful hcareful
    rw [hactions, List.tail_cons] at hhost
    obtain ⟨k, u, hk, hrun, hended⟩ := ih t hcareful' hhost
    exact ⟨k + 1, u, Nat.succ_le_succ hk, (run_succ ht k).trans hrun, hended⟩

end Sys2Proof.Proofs
end

section
/-!
PROOFS of the family 70_reset_and_hazards.md: a reset at any time (R200, R201), the one hazard between commands (R203),
and when a run has gone wrong at its end (R208).
-/

namespace Sys2Proof.Proofs

open Sys2Proof Sys2Proof.Machine Sys2Proof.Safety

/-! ### Stale round keys (R203) -/

theorem runInstrs_singleton {i : Instr} {s t : State} (h : exec i s = .next t) : runInstrs [i] s = .next t := by
  rw [runInstrs_cons h, runInstrs]

theorem bankAt_keyExpand_zero (K : Block) : bankAt (keyExpand K) 0 = K := bankAt_keyExpand K 0

/-- `ENCRYPT` writes the bank before it reads it (R20, R154). -/
theorem exec_encrypt_writeRK (s : State) (W : Bank) : exec .encrypt (writeRK s W) = exec .encrypt s := rfl

/-- `LDK` leaves `RK` as it was, so the key added is the bank's entry from before. -/
theorem runInstrs_ldk_addroundkey {k : BitVec 4} (hk : k.toNat ≤ 10) (s : State) (d : Block) :
    runInstrs [.ldk d, .addroundkey k] s =
      .next (writeS (writeKey s d) (addRoundKey s.S (bankAt s.RK ⟨k.toNat, Nat.lt_succ_of_le hk⟩))) := by
  rw [runInstrs_cons (exec_ldk d s)]
  exact runInstrs_singleton (exec_addroundkey_of_le hk (writeKey s d))

/-- Between the two `KEYEXPAND` fills the bank from the new key, whose round key 0 is that key (R141). -/
theorem runInstrs_ldk_keyexpand_addroundkey_zero (s : State) (d : Block) :
    runInstrs [.ldk d, .keyexpand, .addroundkey 0#4] s =
      .next (writeS (writeRK (writeKey s d) (keyExpand d)) (addRoundKey s.S d)) := by
  have hadd : exec (.addroundkey 0#4) (writeRK (writeKey s d) (keyExpand d)) =
      .next (writeS (writeRK (writeKey s d) (keyExpand d)) (addRoundKey s.S (bankAt (keyExpand d) 0))) :=
    exec_addroundkey_of_le (by decide) _
  rw [bankAt_keyExpand_zero] at hadd
  rw [runInstrs_cons (exec_ldk d s), runInstrs_cons (exec_keyexpand (writeKey s d))]
  exact runInstrs_singleton hadd

/-- Settles O24: `LDK` does not write `RK`, `KEYEXPAND` writes all of it, and `ENCRYPT` does not read what it held. -/
theorem staleRoundKeys : Obligations.StaleRoundKeys :=
  ⟨fun s d _ hk => runInstrs_ldk_addroundkey hk s d, runInstrs_ldk_keyexpand_addroundkey_zero, exec_encrypt_writeRK⟩

/-! ### When a run has gone wrong (R208) -/

/-- What decides how a run without a reset ends: `ERR` is set already, the command running is illegal, or the host has
an illegal one still to issue. -/
def goesWrong (s : State) : Bool := wentWrong s || s.busy.any rejected || s.host.any issuesRejected

theorem goesWrong_of_runEnded {s : State} (h : runEnded s = true) : goesWrong s = wentWrong s := by
  obtain ⟨hbusy, hhost⟩ : s.busy = none ∧ s.host = [] := by simpa [runEnded] using h
  simp [goesWrong, hbusy, hhost]

/-- A command sets `ERR` exactly when it is illegal, and none clears it (R180, R181, R187). -/
theorem wentWrong_of_runCommand {c : Command} {s t : State} (h : runCommand c s = .next t) :
    wentWrong t = (wentWrong s || rejected c) := by
  obtain ⟨i, hdec, hrun⟩ | ⟨e, hdec, hrun⟩ := runCommand_cases c s
  · have herr := errOf_of_exec_wf (wf_of_decode_eq_ok hdec) (hrun.symm.trans h)
    simp [wentWrong, herr, rejected, hdec]
  · cases hrun.symm.trans h
    simp [wentWrong, rejected, hdec]

/-- The command a block was busy with weighs after its completion as it did before. -/
theorem goesWrong_of_runCommand {c : Command} {s t : State} (hidle : s.busy = none) (h : runCommand c s = .next t) :
    goesWrong t = (wentWrong s || rejected c || s.host.any issuesRejected) := by
  obtain ⟨hbusy, hhost⟩ := runCommand_interface h
  simp [goesWrong, wentWrong_of_runCommand h, hbusy, hidle, hhost]

/-- A step moves an illegal command from the host to the block and from the block into `ERR`; it loses none. -/
theorem step_keeps_goesWrong {s t : State} (h : step s = .next t) (hnoreset : HostAction.reset ∉ s.host) :
    goesWrong t = goesWrong s := by
  obtain ⟨hnone, hidle⟩ | ⟨c, hc, hbusy⟩ := step_cases h
  · obtain ⟨-, rfl⟩ | ⟨rest, ⟨c, hhost, rfl⟩ | ⟨r, hhost, rfl⟩ | ⟨hhost, -⟩ | ⟨hhost, rfl⟩⟩ := idleStep_cases hidle
    · rfl
    · simp [goesWrong, wentWrong, hnone, hhost, issuesRejected, Bool.or_assoc]
    · simp [goesWrong, wentWrong, hhost, issuesRejected]
    · simp [hhost] at hnoreset
    · simp [goesWrong, wentWrong, hhost, issuesRejected]
  · obtain ⟨hhost, hrun⟩ | ⟨rest, ⟨hhost, hrun⟩ | ⟨hhost, -⟩⟩ := busyStep_cases hbusy
    · rw [goesWrong_of_runCommand rfl hrun]
      simp [goesWrong, wentWrong, hc]
    · rw [goesWrong_of_runCommand rfl hrun]
      simp [goesWrong, wentWrong, hc, hhost, issuesRejected]
    · simp [hhost] at hnoreset

theorem run_succ_cases {n : Nat} {s t : State} (h : run (n + 1) s = .next t) :
    ∃ u, step s = .next u ∧ run n u = .next t := by
  rw [run] at h
  split at h
  · exact ⟨_, by assumption, h⟩
  · cases h
  · cases h

theorem run_keeps_goesWrong {n : Nat} {s t : State} (hrun : run n s = .next t) (hnoreset : HostAction.reset ∉ s.host) :
    goesWrong t = goesWrong s := by
  induction n generalizing s with
  | zero => cases hrun; rfl
  | succ n ih =>
    obtain ⟨u, hstep, hrest⟩ := run_succ_cases hrun
    obtain ⟨hhost, -⟩ := step_interface hstep
    have hnoreset' : HostAction.reset ∉ u.host := fun hmem => hnoreset (List.mem_of_mem_tail (hhost ▸ hmem))
    exact (ih hrest hnoreset').trans (step_keeps_goesWrong hstep hnoreset)

/-- Settles O43: no step changes `goesWrong`, which is `ERR` at the end of a run; that the run answered already rules
out a host that acts while the block is busy. -/
theorem runWentWrongExactlyByIllegalCommand : Obligations.RunWentWrongExactlyByIllegalCommand := by
  intro n s t _ hnoreset hrun hended
  calc wentWrong t = goesWrong t := (goesWrong_of_runEnded hended).symm
    _ = goesWrong s := run_keeps_goesWrong hrun hnoreset

/-! ### Reset (R200, R201) -/

/-- Settles O36: the step is the reset, and a reset builds the state from the reset registers. -/
theorem resetAtAnyTime : Obligations.ResetAtAnyTime := fun _ _ hhost => step_reset hhost

end Sys2Proof.Proofs
end
